-- ==== Sys2Proof/Config.lean ====
section
/-! DEFINITION. The parameter table of R9. Every value but `W` is fixed by the spec. The one open parameter is carried by
`Machine.State.limbs` (`L = W / 32`), so that the machine is defined for every `W`; here stands only the `L` of the one
instance that `State.reset` names (assumption log 1). -/

namespace Sys2Proof.Config

/-- `NREG`: operand registers `r0` to `r7` (R9, R20). -/
abbrev nreg : Nat := 8

/-- `REGBASE`: byte address of limb 0 of `r0` (R9, R66). -/
abbrev regBase : Nat := 0x100

/-- `ROUNDS_MAX`: the largest `rounds` an `ISPRIME` command can carry (R9, R94). -/
abbrev roundsMax : Nat := 255

/-- `VERSION`: `CAPS[31:24]` (R9, R38). -/
abbrev version : BitVec 8 := 0x01

/-- "Instances with `L > 65535` do not exist" (R38). -/
abbrev maxLimbs : Nat := 65535

/-- DESIGN CHOICE (log 1): the limbs of the instance `State.reset` stands for, `L = 1`, that is `W = 32`. The spec leaves
`W` open (R9); every statement that is not about `State.reset` itself is about every `L`. Unsafe for a claim about
`State.reset` read as one about every instance. -/
abbrev resetLimbs : Nat := 1

end Sys2Proof.Config
end

