-- ==== Sys2Proof/Word.lean ====
section
/-! DEFINITION. The 32-bit word of the host data bus and of the command word (`XLEN = 32`, R9, R60, R90). -/

namespace Sys2Proof

/-- A 32-bit bus datum, limb or command word (R9 `XLEN`, R60, R90). -/
abbrev Word := BitVec 32

end Sys2Proof
end

