-- ==== Sys2Proof/Syntax.lean ====
section
/-! DEFINITION. The seven commands of R96 (spec/opcode_table.json), operands in the order of the assembler syntax R102. -/

namespace Sys2Proof

/-- The number of an operand register, `r0` to `r7` (R20, R92). -/
abbrev Reg := Fin Config.nreg

/-- One constructor per row of the opcode table (R96). `rounds` is a plain count: the syntax of R102 lets one be written
that no encoding carries, and `Instr.wellFormed` refuses it. -/
inductive Instr where
  /-- `MODRED rd, ra, rm` (R122). -/
  | modred (rd ra rm : Reg)
  /-- `MODADD rd, ra, rb, rm` (R123). -/
  | modadd (rd ra rb rm : Reg)
  /-- `MODSUB rd, ra, rb, rm` (R124). -/
  | modsub (rd ra rb rm : Reg)
  /-- `MODMUL rd, ra, rb, rm` (R125). -/
  | modmul (rd ra rb rm : Reg)
  /-- `POWMOD rd, ra, rb, rm` (R141): `ra` base, `rb` exponent. -/
  | powmod (rd ra rb rm : Reg)
  /-- `WITNESS ra, rm` (R162): `ra` witness, `rm` number under test. -/
  | witness (ra rm : Reg)
  /-- `ISPRIME rm, #rounds` (R170). -/
  | isprime (rm : Reg) (rounds : Nat)
  deriving DecidableEq, Repr

/-- The seven rows of the opcode table, without their operands (R96). -/
inductive Op where
  | modred
  | modadd
  | modsub
  | modmul
  | powmod
  | witness
  | isprime
  deriving DecidableEq, Repr

end Sys2Proof
end

