-- ==== Sys2Proof/WellFormed.lean ====
section
/-! DEFINITION. Which instructions have an encoding. -/

namespace Sys2Proof

/-- An instruction has an encoding when its immediate fits `imm8`: "A count above 255 has no encoding" (R94, R102). Register
numbers above 7 cannot be written at all: `Reg` has the eight values of R92. -/
def Instr.wellFormed : Instr → Bool
  | .modred _ _ _ => true
  | .modadd _ _ _ _ => true
  | .modsub _ _ _ _ => true
  | .modmul _ _ _ _ => true
  | .powmod _ _ _ _ => true
  | .witness _ _ => true
  | .isprime _ rounds => decide (rounds ≤ Config.roundsMax)

end Sys2Proof
end

