-- ==== Sys2Proof/Decode.lean ====
section
/-! DEFINITION. The command word: its fields (R91), the opcode table (R95, R96), the decoder (R97) and the encoder (R91). -/

namespace Sys2Proof

/-- The fields of the command word (R91). -/
inductive Field where
  | opcode
  | rd
  | ra
  | rb
  | rm
  | imm8
  deriving DecidableEq, Repr

/-- Why a word is not a command, in the order R97 looks (R98, R252). -/
inductive Illegal where
  /-- `w[31:24]` is one of the 249 unassigned opcodes (R95). -/
  | unassignedOpcode (op : Nat)
  /-- A field the command does not use is not 0 (R93). -/
  | nonZeroField (f : Field)
  /-- A register field the command uses names 8 to 15 (R92). -/
  | badRegister (f : Field)
  deriving DecidableEq, Repr

/-- The lowest bit of a field in the command word (R91). -/
def fieldLow : Field → Nat
  | .opcode => 24
  | .rd => 20
  | .ra => 16
  | .rb => 12
  | .rm => 8
  | .imm8 => 0

/-- The width of a field in bits (R91). -/
def fieldWidth : Field → Nat
  | .opcode => 8
  | .rd => 4
  | .ra => 4
  | .rb => 4
  | .rm => 4
  | .imm8 => 8

/-- The value of a field of the word, `w[hi:lo]` (R10, R91). -/
def fieldValue (f : Field) (w : Word) : Nat :=
  w.toNat / 2 ^ fieldLow f % 2 ^ fieldWidth f

/-- The opcode column of R96. -/
def opcodeOf : Op → Nat
  | .modred => 0x01
  | .modadd => 0x02
  | .modsub => 0x03
  | .modmul => 0x04
  | .powmod => 0x08
  | .witness => 0x10
  | .isprime => 0x11

/-- The row with an opcode, if the opcode is assigned (R95, R96). -/
def opOfOpcode : Nat → Option Op
  | 0x01 => some .modred
  | 0x02 => some .modadd
  | 0x03 => some .modsub
  | 0x04 => some .modmul
  | 0x08 => some .powmod
  | 0x10 => some .witness
  | 0x11 => some .isprime
  | _ => none

/-- The mnemonic column of R96. -/
def opMnemonic : Op → String
  | .modred => "MODRED"
  | .modadd => "MODADD"
  | .modsub => "MODSUB"
  | .modmul => "MODMUL"
  | .powmod => "POWMOD"
  | .witness => "WITNESS"
  | .isprime => "ISPRIME"

/-- The register fields of the "uses" column of R96. -/
def opRegFields : Op → List Field
  | .modred => [.rd, .ra, .rm]
  | .modadd => [.rd, .ra, .rb, .rm]
  | .modsub => [.rd, .ra, .rb, .rm]
  | .modmul => [.rd, .ra, .rb, .rm]
  | .powmod => [.rd, .ra, .rb, .rm]
  | .witness => [.ra, .rm]
  | .isprime => [.rm]

/-- The "must be 0" column of R96. -/
def opZeroFields : Op → List Field
  | .modred => [.rb, .imm8]
  | .modadd => [.imm8]
  | .modsub => [.imm8]
  | .modmul => [.imm8]
  | .powmod => [.imm8]
  | .witness => [.rd, .rb, .imm8]
  | .isprime => [.rd, .ra, .rb]

/-- The match column of R96. -/
def opMatch : Op → Word
  | .modred => 0x01000000
  | .modadd => 0x02000000
  | .modsub => 0x03000000
  | .modmul => 0x04000000
  | .powmod => 0x08000000
  | .witness => 0x10000000
  | .isprime => 0x11000000

/-- The mask column of R96. -/
def opMask : Op → Word
  | .modred => 0xFF88F8FF
  | .modadd => 0xFF8888FF
  | .modsub => 0xFF8888FF
  | .modmul => 0xFF8888FF
  | .powmod => 0xFF8888FF
  | .witness => 0xFFF8F8FF
  | .isprime => 0xFFFFF800

/-- The row an instruction belongs to (R96). -/
def instrOp : Instr → Op
  | .modred _ _ _ => .modred
  | .modadd _ _ _ _ => .modadd
  | .modsub _ _ _ _ => .modsub
  | .modmul _ _ _ _ => .modmul
  | .powmod _ _ _ _ => .powmod
  | .witness _ _ => .witness
  | .isprime _ _ => .isprime

/-- The register a field of the word names. It is asked only of fields R97 has found below 8. -/
def fieldReg (f : Field) (w : Word) : Reg :=
  Fin.ofNat Config.nreg (fieldValue f w)

/-- The command of a row whose checks have passed: the last line of R97. -/
def buildInstr (op : Op) (w : Word) : Instr :=
  match op with
  | .modred => .modred (fieldReg .rd w) (fieldReg .ra w) (fieldReg .rm w)
  | .modadd => .modadd (fieldReg .rd w) (fieldReg .ra w) (fieldReg .rb w) (fieldReg .rm w)
  | .modsub => .modsub (fieldReg .rd w) (fieldReg .ra w) (fieldReg .rb w) (fieldReg .rm w)
  | .modmul => .modmul (fieldReg .rd w) (fieldReg .ra w) (fieldReg .rb w) (fieldReg .rm w)
  | .powmod => .powmod (fieldReg .rd w) (fieldReg .ra w) (fieldReg .rb w) (fieldReg .rm w)
  | .witness => .witness (fieldReg .ra w) (fieldReg .rm w)
  | .isprime => .isprime (fieldReg .rm w) (fieldValue .imm8 w)

/-- The checks of R97 for a row: first its must-be-0 fields, then its register fields. -/
def fieldFault (op : Op) (w : Word) : Option Illegal :=
  match (opZeroFields op).find? (fun f => fieldValue f w != 0) with
  | some f => some (.nonZeroField f)
  | none => ((opRegFields op).find? (fun f => decide (Config.nreg ≤ fieldValue f w))).map Illegal.badRegister

/-- Decoding, total on all words (R97). It reads no engine state. -/
def decode (w : Word) : Except Illegal Instr :=
  match opOfOpcode (fieldValue .opcode w) with
  | none => .error (.unassignedOpcode (fieldValue .opcode w))
  | some op =>
    match fieldFault op w with
    | some e => .error e
    | none => .ok (buildInstr op w)

/-- A word made of its six fields (R91). -/
def packWord (opcode rd ra rb rm imm8 : Nat) : Word :=
  BitVec.ofNat 32
    (opcode * 2 ^ 24 + rd * 2 ^ 20 + ra * 2 ^ 16 + rb * 2 ^ 12 + rm * 2 ^ 8 + imm8)

/-- The word of a well-formed instruction (R91, R96): unused fields are 0 (R93). -/
def encode : Instr → Word
  | .modred rd ra rm => packWord 0x01 rd ra 0 rm 0
  | .modadd rd ra rb rm => packWord 0x02 rd ra rb rm 0
  | .modsub rd ra rb rm => packWord 0x03 rd ra rb rm 0
  | .modmul rd ra rb rm => packWord 0x04 rd ra rb rm 0
  | .powmod rd ra rb rm => packWord 0x08 rd ra rb rm 0
  | .witness ra rm => packWord 0x10 0 ra 0 rm 0
  | .isprime rm rounds => packWord 0x11 0 0 0 rm rounds

/-- What the decoder reads from an instruction whose bits, numbered as spec/opcode_table.json numbers them, are `w`: the
command word is one 32-bit word (R90), bus bit `k` is word bit `k` (R69), and bits at or above `nbits` are 0. A number that
does not fit one word is no command. -/
def decodeTableWord (nbits w : Nat) : Option Instr :=
  if w % 2 ^ nbits < 2 ^ 32 then (decode (BitVec.ofNat 32 (w % 2 ^ nbits))).toOption else none

end Sys2Proof
end

