-- ==== Sys2Proof/Machine/State.lean ====
section
/-! DEFINITION. The state of the machine (10_state.md), the events that move it (R12, R310), the reasons a step of the model
can stop, and the state after reset (R47). -/

namespace Sys2Proof.Machine

/-- The five fault codes of R251, by their names there. -/
inductive ErrCode where
  /-- 1, `ERR_ILLEGAL`: the word written to `CMD` is not a legal command (R252). -/
  | illegal
  /-- 2, `ERR_MODZERO`: the `rm` register holds 0 (R253). -/
  | modZero
  /-- 3, `ERR_OPERAND`: `WITNESS` whose `rm` register holds 1 (R253). -/
  | operand
  /-- 4, `ERR_BUSY`: a host write to `CMD` or the register window while `BUSY = 1` (R255). -/
  | busy
  /-- 5, `ERR_RAND`: a draw answer outside the requested bounds (R167, R253). -/
  | rand
  deriving DecidableEq, Repr

/-- The engine states of R46. -/
inductive EngineState where
  | idle
  | running
  | waiting
  | faulted
  deriving DecidableEq, Repr

/-- The sizes of access a platform might let through. Only `word` exists at the port (R60, R71). -/
inductive AccessWidth where
  | byte
  | half
  | word
  | double
  deriving DecidableEq, Repr

/-- One step of one agent (R12, R264, R310). -/
inductive Event where
  /-- Host: `MemRead` (R61). -/
  | read (width : AccessWidth) (addr : Nat)
  /-- Host: `MemWrite` (R62). A datum of another width than 32 bits is dropped with its access (R71), so none is kept. -/
  | write (width : AccessWidth) (addr : Nat) (data : Word)
  /-- Engine: completion or draw request, whichever is next (R310). -/
  | engine
  /-- Engine: one invisible pass of a loop of the command in flight (R42, R143, R164, R308). -/
  | pass
  /-- Random source: the answer to the outstanding draw, with its receipt (R166 events 2 and 3). -/
  | answer (val : Nat)
  /-- Environment: hardware reset is asserted (R290). -/
  | resetAssert
  /-- Environment: hardware reset is released (R290). -/
  | resetRelease
  deriving DecidableEq, Repr

/-- The two responses of the host port (R60). -/
inductive BusResponse where
  | ok
  | buserr
  deriving DecidableEq, Repr

/-- What the host port answers to a transaction: the response and, for a read, the datum (R60, R61). -/
structure Reply where
  response : BusResponse
  datum : Option Word
  deriving DecidableEq, Repr

/-- The bounds of a draw request (R165, R166). -/
structure Bounds where
  lo : Nat
  hi : Nat
  deriving DecidableEq, Repr

/-- POWMOD's hidden state: accumulator `v`, running power `p`, the part `d` of the exponent not yet consumed (R42, R141). -/
structure PowWork where
  v : Nat
  p : Nat
  d : Nat
  deriving DecidableEq, Repr

/-- WITNESS's hidden state (R42), one constructor for each place of the pseudocode of R162 the computation can be at. -/
inductive WitnessWork where
  /-- In the halving loop: `u`, `t`. -/
  | halving (u t : Nat)
  /-- In the exponentiation `a^u mod n`, the exponent being consumed as POWMOD's `d`: `t` and the inner POWMOD state. -/
  | exponentiating (t : Nat) (pow : PowWork)
  /-- Between rounds of the squaring loop: `t`, the number `i` of rounds done, `x`. -/
  | squaring (t i x : Nat)
  /-- Inside round `i` of the squaring loop, `y` computed and not yet tested: `t`, `i`, `x`, `y`. -/
  | comparing (t i x y : Nat)
  /-- The verdict is reached: true for composite. -/
  | verdict (composite : Bool)
  deriving DecidableEq, Repr

/-- The trial of ISPRIME in progress: the current witness `a` and the inner WITNESS state (R42, R170). -/
structure Trial where
  a : Nat
  work : WitnessWork
  deriving DecidableEq, Repr

/-- The working part of the hidden state, by kind of command (R42). -/
inductive Work where
  /-- MODRED, MODADD, MODSUB, MODMUL: no loop, nothing beyond the latched operands (R120). -/
  | field
  /-- POWMOD. -/
  | pow (w : PowWork)
  /-- WITNESS. -/
  | witness (w : WitnessWork)
  /-- ISPRIME: how many trials have been started (the trial index), and the trial in progress once its draw is answered. -/
  | isPrime (i : Nat) (trial : Option Trial)
  deriving DecidableEq, Repr

/-- The hidden state of the command in flight (R42): the operand values latched at acceptance (R44 step 4), 0 where the
command names no such register (DESIGN CHOICE, log 12: nothing reads that 0), and the working part. -/
structure InFlight where
  a : Nat
  b : Nat
  n : Nat
  work : Work
  deriving DecidableEq, Repr

/-- The machine (R47 lists its state). The last three fields are the model's own. -/
structure State where
  /-- `L = W / 32`, the parameter of the instance (R9). No step changes it. -/
  limbs : Nat
  /-- `x[0]` to `x[7]` (R20): natural numbers, below `2^W` in every state the machine can be in (log 21). -/
  regs : Vector Nat Config.nreg
  /-- `CTRL.IE` (R31). -/
  ie : Bool
  /-- `STATUS.BUSY` (R28). -/
  busy : Bool
  /-- `STATUS.DONE` (R28). -/
  done : Bool
  /-- `STATUS.T` (R28, R29). -/
  t : Bool
  /-- `STATUS.ERR` (R28). -/
  err : Bool
  /-- `STATUS.RWAIT` (R28, R166). -/
  rwait : Bool
  /-- `STATUS.ERRCODE` (R36). -/
  errcode : BitVec 4
  /-- `CMDREG` (R37). -/
  cmdreg : Word
  /-- The hidden state of the command in flight (R42, R43). -/
  hidden : Option InFlight
  /-- The outstanding draw request (R166). -/
  draw : Option Bounds
  /-- DESIGN CHOICE (log 10): whether the reset input is asserted (R290). -/
  resetHeld : Bool
  /-- DESIGN CHOICE (log 2): the agents' steps to come, next first (R264, R310). -/
  schedule : List Event
  /-- DESIGN CHOICE (log 9): the port's answer to the last host transaction (R60). -/
  reply : Option Reply
  deriving DecidableEq, Repr

/-- Why the MODEL stops. The engine's own faults (R250, R256) are next states, not these. -/
inductive Fault where
  /-- Raised by a meaning's engine step when `BUSY = 1` and the hidden state is not one of that command (or there is none).
  The spec has no such state (R42 to R44); no run from reset reaches one. Safe. -/
  | notInFlight
  /-- Raised by an engine step when `BUSY = 1` and `CMDREG` holds no legal command. The spec has no such state (R37, R44);
  no run from reset reaches one. Safe. -/
  | cmdregNotACommand
  deriving DecidableEq, Repr

/-- Why the model gives an instruction no meaning. -/
inductive Refusal where
  /-- An arm of `exec` that has no meaning yet would answer this; no arm does. Safe. -/
  | notModelled (mnemonic : String)
  deriving DecidableEq, Repr

/-- The reset state of the instance with `L` limbs, nothing scheduled (R47). -/
def State.resetOf (L : Nat) : State where
  limbs := L
  regs := Vector.replicate Config.nreg 0
  ie := false
  busy := false
  done := false
  t := false
  err := false
  rwait := false
  errcode := 0
  cmdreg := 0
  hidden := none
  draw := none
  resetHeld := false
  schedule := []
  reply := none

/-- The machine right after reset (R47), for the instance of log 1 (`W = 32`). -/
def State.reset : State := State.resetOf Config.resetLimbs

end Sys2Proof.Machine
end

