-- ==== Sys2Proof/Machine/Flags.lean ====
section
/-! DEFINITION. Everything computed from the flags and control bits: the engine state of R46, the words the host reads at
CTRL, STATUS and CAPS, and the interrupt output. -/

namespace Sys2Proof.Machine

/-- The number of a fault code in `ERRCODE` (R251). -/
def errNumber : ErrCode → BitVec 4
  | .illegal => 1
  | .modZero => 2
  | .operand => 3
  | .busy => 4
  | .rand => 5

/-- The engine state (R46), looked at in the order of R254: `ERR` first, then `BUSY`, then `RWAIT`. -/
def engineState (s : State) : EngineState :=
  if s.err then .faulted
  else if s.busy then (if s.rwait then .waiting else .running)
  else .idle

/-- The word read at `STATUS` (R35): `ERRCODE` in bits 11:8, then 7:5 reserved, `RWAIT`, `ERR`, `T`, `DONE`, `BUSY`. -/
def statusWord (s : State) : Word :=
  0#20 ++ s.errcode ++ 0#3 ++ BitVec.ofBool s.rwait ++ BitVec.ofBool s.err ++ BitVec.ofBool s.t ++
    BitVec.ofBool s.done ++ BitVec.ofBool s.busy

/-- The word read at `CTRL`: `IE` in bit 0, all else 0 (R31). -/
def ctrlWord (s : State) : Word :=
  0#31 ++ BitVec.ofBool s.ie

/-- The word read at `CAPS`: version, four zeros, `NREG`, `L` (R38). -/
def capsWord (s : State) : Word :=
  Config.version ++ 0#4 ++ BitVec.ofNat 4 Config.nreg ++ BitVec.ofNat 16 s.limbs

/-- The interrupt output, `CTRL.IE and (STATUS.DONE or STATUS.ERR)` (R262). -/
def irq (s : State) : Bool :=
  s.ie && (s.done || s.err)

end Sys2Proof.Machine
end

