-- ==== Sys2Proof/Machine/Ops.lean ====
section
/-! DEFINITION. The named operations every agent's step is made of: reading and writing operand registers, raising a fault
(R256) and the reset that alone leaves it (R32, R260), acceptance (R44), completion (R45), the draw request and its receipt
(R166), and the shape all commands share. -/

namespace Sys2Proof.Machine

/-- The outcome type of a step and of a meaning. -/
abbrev Result := Host.Outcome State Fault Refusal

/-- `x[i]` (R10, R20). -/
def readReg (s : State) (r : Reg) : Nat :=
  s.regs[r]

/-- `x[i] <- v` (R10). -/
def writeReg (r : Reg) (v : Nat) (s : State) : State :=
  { s with regs := s.regs.set r v }

/-- The operand width `W = 32 * L` of the instance (R9). -/
def operandWidth (s : State) : Nat :=
  32 * s.limbs

/-- `raise Fault(code)` (R256): the one exceptional event of the engine. Registers, `T`, `IE`, `CMDREG` and `DONE` keep
their values. -/
def raiseFault (c : ErrCode) (s : State) : State :=
  { s with
    err := true
    errcode := errNumber c
    busy := false
    rwait := false
    hidden := none
    draw := none }

/-- The reset of R32 and R290, the only way out of the faulted state (R260): every piece of engine state takes its value of
R47. The instance, the level of the reset input, the schedule and the port's last answer are not engine state (log 22). -/
def resetEngine (s : State) : State :=
  { State.resetOf s.limbs with
    resetHeld := s.resetHeld
    schedule := s.schedule
    reply := s.reply }

/-- Acceptance step 1 (R44): `CMDREG <- w`, `DONE <- 0`. -/
def latchCommand (w : Word) (s : State) : State :=
  { s with cmdreg := w, done := false }

/-- Acceptance steps 3 and 4 (R44): the fault an operand check found, or the latched operands and `BUSY <- 1`. -/
def accept (check : Option ErrCode) (latched : InFlight) (s : State) : State :=
  match check with
  | some c => raiseFault c s
  | none => { s with busy := true, hidden := some latched }

/-- What completion does whatever the command (R45): `BUSY <- 0`, `RWAIT <- 0`, `DONE <- 1`, hidden state discarded. -/
def finish (s : State) : State :=
  { s with
    busy := false
    rwait := false
    done := true
    hidden := none
    draw := none }

/-- Completion of a command with a register result (R45). -/
def completeReg (rd : Reg) (v : Nat) (s : State) : State :=
  finish (writeReg rd v s)

/-- Completion of a command whose result is `STATUS.T` (R45, R160). -/
def completeFlag (b : Bool) (s : State) : State :=
  finish { s with t := b }

/-- A draw request (R166 event 1): `RWAIT <- 1`, the bounds become visible; `h` is the hidden state while the engine holds. -/
def requestDraw (b : Bounds) (h : InFlight) (s : State) : State :=
  { s with rwait := true, draw := some b, hidden := some h }

/-- Receipt of an answer within the bounds (R166 event 3): `RWAIT <- 0`, the request is over; `h` is the hidden state the
command goes on with. -/
def receiveDraw (h : InFlight) (s : State) : State :=
  { s with rwait := false, draw := none, hidden := some h }

/-- The port's answer to the host transaction just done (R60). -/
def withReply (r : Reply) (s : State) : State :=
  { s with reply := some r }

/-- The event at the head of the schedule is being taken: `rest` is left. -/
def withSchedule (rest : List Event) (s : State) : State :=
  { s with schedule := rest }

/-- What every command does, in the engine state it meets (R46; DESIGN CHOICE, log 17). Idle: acceptance steps 3 and 4 with the command's
operand checks and latched operands (R44). Running: the engine's next step on the latched operands (R310), `advance`.
Waiting: "The engine then has no step of its own until the answer comes" (R166). Faulted: "the engine accepts no command"
(R258). -/
def runCommand (check : Option ErrCode) (latched : InFlight) (advance : InFlight → Result) (s : State) : Result :=
  match engineState s with
  | .idle => .next (accept check latched s)
  | .running =>
    match s.hidden with
    | some h => advance h
    | none => .fault .notInFlight
  | .waiting => .next s
  | .faulted => .next s

end Sys2Proof.Machine
end

