-- ==== Sys2Proof/Machine/Operands.lean ====
section
/-! DEFINITION. Operands: the limbs of a register (R66, R69), the operand checks at acceptance (R254) and what each operand
form latches (R44 step 4). -/

namespace Sys2Proof.Machine

/-- Limb `j` of a value: bits `32*j + 31 .. 32*j` (R66). -/
def limbOf (j v : Nat) : Word :=
  BitVec.ofNat 32 (v / 2 ^ (32 * j))

/-- A value with limb `j` replaced and every other bit kept (R66). -/
def setLimb (j : Nat) (d : Word) (v : Nat) : Nat :=
  v / 2 ^ (32 * (j + 1)) * 2 ^ (32 * (j + 1)) + d.toNat * 2 ^ (32 * j) + v % 2 ^ (32 * j)

/-- Limb `j` of register `ri`, as the register window shows it (R66). -/
def readLimb (s : State) (i : Reg) (j : Nat) : Word :=
  limbOf j (readReg s i)

/-- An admitted write of limb `j` of register `ri` (R66). -/
def writeLimb (i : Reg) (j : Nat) (d : Word) (s : State) : State :=
  writeReg i (setLimb j d (readReg s i)) s

/-- The zero-modulus check (R128, R253). -/
def checkModulus (n : Nat) : Option ErrCode :=
  if n = 0 then some .modZero else none

/-- The operand checks of WITNESS, in their order (R163, R254). -/
def checkWitness (n : Nat) : Option ErrCode :=
  if n = 0 then some .modZero else if n = 1 then some .operand else none

/-- One source and the modulus (MODRED). -/
def latchUnary (a n : Nat) : InFlight :=
  { a := a, b := 0, n := n, work := .field }

/-- Two sources and the modulus (MODADD, MODSUB, MODMUL). -/
def latchBinary (a b n : Nat) : InFlight :=
  { a := a, b := b, n := n, work := .field }

end Sys2Proof.Machine
end

