-- ==== Sys2Proof/Machine/Field.lean ====
section
/-! DEFINITION. The field-element arithmetic commands (40_field_arithmetic.md): exact arithmetic on naturals, reduced at the
end (R121), operands not required to be reduced (R127). -/

namespace Sys2Proof.Machine

/-- The value of MODRED (R122). -/
def modred (a n : Nat) : Nat :=
  a % n

/-- The value of MODADD (R123). -/
def modadd (a b n : Nat) : Nat :=
  (a + b) % n

/-- The value of MODSUB by the pseudocode of R124: no negative number is formed. -/
def modsub (a b n : Nat) : Nat :=
  if a % n ≥ b % n then a % n - b % n else a % n + n - b % n

/-- The value of MODMUL (R125). -/
def modmul (a b n : Nat) : Nat :=
  a * b % n

/-- Completion of a field command (R120, R45): no loop, one result from the latched operands. -/
def completeField (rd : Reg) (value : Nat) (h : InFlight) (s : State) : Result :=
  match h.work with
  | .field => .next (completeReg rd value s)
  | .pow _ => .fault .notInFlight
  | .witness _ => .fault .notInFlight
  | .isPrime _ _ => .fault .notInFlight

/-- `MODRED rd, ra, rm` (R122). -/
def execModred (rd ra rm : Reg) (s : State) : Result :=
  runCommand (checkModulus (readReg s rm)) (latchUnary (readReg s ra) (readReg s rm))
    (fun h => completeField rd (modred h.a h.n) h s) s

/-- `MODADD rd, ra, rb, rm` (R123). -/
def execModadd (rd ra rb rm : Reg) (s : State) : Result :=
  runCommand (checkModulus (readReg s rm)) (latchBinary (readReg s ra) (readReg s rb) (readReg s rm))
    (fun h => completeField rd (modadd h.a h.b h.n) h s) s

/-- `MODSUB rd, ra, rb, rm` (R124). -/
def execModsub (rd ra rb rm : Reg) (s : State) : Result :=
  runCommand (checkModulus (readReg s rm)) (latchBinary (readReg s ra) (readReg s rb) (readReg s rm))
    (fun h => completeField rd (modsub h.a h.b h.n) h s) s

/-- `MODMUL rd, ra, rb, rm` (R125). -/
def execModmul (rd ra rb rm : Reg) (s : State) : Result :=
  runCommand (checkModulus (readReg s rm)) (latchBinary (readReg s ra) (readReg s rb) (readReg s rm))
    (fun h => completeField rd (modmul h.a h.b h.n) h s) s

end Sys2Proof.Machine
end

