-- ==== Sys2Proof/Machine/Modexp.lean ====
section
/-! DEFINITION. POWMOD (41_modexp.md): right-to-left square and multiply. The same loop serves WITNESS (R161). -/

namespace Sys2Proof.Machine

/-- `bitlen(v)` (R10). -/
def bitlen (v : Nat) : Nat :=
  if v = 0 then 0 else Nat.log2 v + 1

/-- The state before the first pass: `v <- 1 mod n`, `p <- b0 mod n`, `d <- e` (R141, R142). -/
def powStart (b e n : Nat) : PowWork :=
  { v := 1 % n, p := b % n, d := e }

/-- One pass of the loop of R141: nothing once `d = 0`. The square is computed also in the last pass (R143). -/
def powPass (n : Nat) (w : PowWork) : PowWork :=
  if w.d = 0 then w
  else { v := if w.d % 2 = 1 then w.v * w.p % n else w.v, p := w.p * w.p % n, d := w.d / 2 }

/-- `k` passes. -/
def powPasses (n : Nat) : Nat → PowWork → PowWork
  | 0, w => w
  | k + 1, w => powPasses n k (powPass n w)

/-- The value the loop ends with, from any point of it: `bitlen(d)` passes are left (R143). -/
def powFinish (n : Nat) (w : PowWork) : Nat :=
  (powPasses n (bitlen w.d) w).v

/-- `powmod(b, e, n)` (R141, R161). -/
def powmod (b e n : Nat) : Nat :=
  powFinish n (powStart b e n)

/-- POWMOD latches base, exponent and modulus and starts its loop (R141, R44 step 4). -/
def latchPow (b e n : Nat) : InFlight :=
  { a := b, b := e, n := n, work := .pow (powStart b e n) }

/-- Completion of POWMOD: the passes that are left, then the result (R141, R45). -/
def completePow (rd : Reg) (h : InFlight) (s : State) : Result :=
  match h.work with
  | .pow w => .next (completeReg rd (powFinish h.n w) s)
  | .field => .fault .notInFlight
  | .witness _ => .fault .notInFlight
  | .isPrime _ _ => .fault .notInFlight

/-- `POWMOD rd, ra, rb, rm` (R141): base `x[ra]`, exponent `x[rb]`, modulus `x[rm]`. -/
def execPowmod (rd ra rb rm : Reg) (s : State) : Result :=
  runCommand (checkModulus (readReg s rm)) (latchPow (readReg s ra) (readReg s rb) (readReg s rm))
    (fun h => completePow rd h s) s

end Sys2Proof.Machine
end

