-- ==== Sys2Proof/Machine/Primality.lean ====
section
/-! DEFINITION. WITNESS and ISPRIME (42_primality.md), with the random-source port's request and receipt (R165 to R167). -/

namespace Sys2Proof.Machine

/-- The halving loop of R162 run to its end: `u` and `t`. The fuel `bitlen(u)` is more than the passes left for `u >= 1`
(R164). -/
def halve : Nat → Nat → Nat → Nat × Nat
  | 0, u, t => (u, t)
  | k + 1, u, t => if u % 2 = 0 then halve k (u / 2) (t + 1) else (u, t)

/-- The test inside a squaring round: "non-trivial square root of 1 found" (R162). -/
def nontrivialRoot (n x y : Nat) : Bool :=
  y == 1 && x != 1 && x != n - 1

/-- The squaring loop of R162 with `k` rounds left, and the final Fermat check. -/
def squareLoop (n : Nat) : Nat → Nat → Bool
  | 0, x => x != 1
  | k + 1, x => if nontrivialRoot n x (x * x % n) then true else squareLoop n k (x * x % n)

/-- The verdict `witness` ends with, from any point of its pseudocode (R162). -/
def witnessFinish (a n : Nat) : WitnessWork → Bool
  | .halving u t => squareLoop n (halve (bitlen u) u t).2 (powmod a (halve (bitlen u) u t).1 n)
  | .exponentiating t w => squareLoop n t (powFinish n w)
  | .squaring t i x => squareLoop n (t - i) x
  | .comparing t i x y => if nontrivialRoot n x y then true else squareLoop n (t - i) y
  | .verdict c => c

/-- One pass of the pseudocode of R162. -/
def witnessPass (a n : Nat) : WitnessWork → WitnessWork
  | .halving u t => if u % 2 = 0 then .halving (u / 2) (t + 1) else .exponentiating t (powStart a u n)
  | .exponentiating t w => if w.d = 0 then .squaring t 0 w.v else .exponentiating t (powPass n w)
  | .squaring t i x => if i < t then .comparing t (i + 1) x (x * x % n) else .verdict (x != 1)
  | .comparing t i x y => if nontrivialRoot n x y then .verdict true else .squaring t i y
  | .verdict c => .verdict c

/-- The state `witness` starts in: `u <- n - 1`, `t <- 0` (R162). -/
def witnessStart (n : Nat) : WitnessWork :=
  .halving (n - 1) 0

/-- `witness(a, n)` (R162): true for composite. -/
def witness (a n : Nat) : Bool :=
  witnessFinish a n (witnessStart n)

/-- WITNESS latches witness and number under test (R162, R44 step 4). -/
def latchWitness (a n : Nat) : InFlight :=
  { a := a, b := 0, n := n, work := .witness (witnessStart n) }

/-- Completion of WITNESS (R162, R45). -/
def completeWitness (h : InFlight) (s : State) : Result :=
  match h.work with
  | .witness w => .next (completeFlag (witnessFinish h.a h.n w) s)
  | .field => .fault .notInFlight
  | .pow _ => .fault .notInFlight
  | .isPrime _ _ => .fault .notInFlight

/-- `WITNESS ra, rm` (R162). -/
def execWitness (ra rm : Reg) (s : State) : Result :=
  runCommand (checkWitness (readReg s rm)) (latchWitness (readReg s ra) (readReg s rm))
    (fun h => completeWitness h s) s

/-- ISPRIME latches the number under test; no trial is started (R170). -/
def latchIsprime (n : Nat) : InFlight :=
  { a := 0, b := 0, n := n, work := .isPrime 0 none }

/-- The immediate decisions of R170, in the document's order. -/
def immediateDecision (n : Nat) : Option Bool :=
  if n < 2 then some false
  else if n % 2 = 0 ∧ n ≠ 2 then some false
  else if n < 4 then some true
  else none

/-- The bounds of every draw, `[2, n - 2]` (R170). -/
def drawBounds (n : Nat) : Bounds :=
  { lo := 2, hi := n - 2 }

/-- With `i` trials done and none composite: the next draw request, or the verdict "no trial found a composite witness"
(R170, R173). -/
def nextTrial (rounds i : Nat) (h : InFlight) (s : State) : State :=
  if i < rounds then requestDraw (drawBounds h.n) { h with work := .isPrime (i + 1) none } s
  else completeFlag true s

/-- The engine's next step in the trial loop (R170): the trial in progress is brought to its verdict; a composite verdict ends
the command at once (R173). -/
def trialLoop (rounds i : Nat) (trial : Option Trial) (h : InFlight) (s : State) : State :=
  match trial with
  | none => nextTrial rounds i h s
  | some tr => if witnessFinish tr.a h.n tr.work then completeFlag false s else nextTrial rounds i h s

/-- The engine's next step of ISPRIME (R170, R310): completion, or a draw request. -/
def advanceIsprime (rounds : Nat) (h : InFlight) (s : State) : Result :=
  match h.work with
  | .isPrime i trial =>
    match immediateDecision h.n with
    | some b => .next (completeFlag b s)
    | none => .next (trialLoop rounds i trial h s)
  | .field => .fault .notInFlight
  | .pow _ => .fault .notInFlight
  | .witness _ => .fault .notInFlight

/-- `ISPRIME rm, #rounds` (R170): no operand check. -/
def execIsprime (rm : Reg) (rounds : Nat) (s : State) : Result :=
  runCommand none (latchIsprime (readReg s rm)) (fun h => advanceIsprime rounds h s) s

/-- The hidden state after an answer `val` within the bounds: the trial starts with `a <- val` (R166 event 3, R170). -/
def startTrial (val : Nat) (h : InFlight) : InFlight :=
  match h.work with
  | .isPrime i _ => { h with work := .isPrime i (some { a := val, work := witnessStart h.n }) }
  | .field => h
  | .pow _ => h
  | .witness _ => h

/-- One invisible pass of the command in flight (R42, R143, R164). Between trials ISPRIME has no loop to pass. -/
def passInFlight (h : InFlight) : InFlight :=
  match h.work with
  | .field => h
  | .pow w => { h with work := .pow (powPass h.n w) }
  | .witness w => { h with work := .witness (witnessPass h.a h.n w) }
  | .isPrime i (some tr) => { h with work := .isPrime i (some { tr with work := witnessPass tr.a h.n tr.work }) }
  | .isPrime _ none => h

end Sys2Proof.Machine
end

