-- ==== Sys2Proof/Machine/Dispatch.lean ====
section
/-! DEFINITION. `exec`: one arm per command, each a direct call of its meaning. -/

namespace Sys2Proof.Machine

def exec (i : Instr) (s : State) : Host.Outcome State Fault Refusal :=
  match i with
  | .modred rd ra rm => Sys2Proof.Machine.execModred rd ra rm s
  | .modadd rd ra rb rm => Sys2Proof.Machine.execModadd rd ra rb rm s
  | .modsub rd ra rb rm => Sys2Proof.Machine.execModsub rd ra rb rm s
  | .modmul rd ra rb rm => Sys2Proof.Machine.execModmul rd ra rb rm s
  | .powmod rd ra rb rm => Sys2Proof.Machine.execPowmod rd ra rb rm s
  | .witness ra rm => Sys2Proof.Machine.execWitness ra rm s
  | .isprime rm rounds => Sys2Proof.Machine.execIsprime rm rounds s

end Sys2Proof.Machine
end

