-- ==== Sys2Proof/Machine/HostPort.lean ====
section
/-! DEFINITION. The host port (20_memory.md): the address map, reads, writes, and the command write that starts a command
(R44). -/

namespace Sys2Proof.Machine

/-- What a mapped address reaches (R64). -/
inductive MapEntry where
  | ctrl
  | status
  | cmd
  | caps
  /-- Limb `j` of `ri` in the register window. -/
  | limb (i : Reg) (j : Nat)
  deriving DecidableEq, Repr

/-- Byte address of `CTRL` (R30). -/
abbrev ctrlAddr : Nat := 0x000

/-- Byte address of `STATUS` (R30). -/
abbrev statusAddr : Nat := 0x004

/-- Byte address of `CMD` (R30). -/
abbrev cmdAddr : Nat := 0x008

/-- Byte address of `CAPS` (R30). -/
abbrev capsAddr : Nat := 0x00C

/-- Byte address of limb `j` of `ri`: `0x100 + 4*(L*i + j)` (R64, R66). -/
def limbAddr (L : Nat) (i : Reg) (j : Nat) : Nat :=
  Config.regBase + 4 * (L * i + j)

/-- The `k`-th word of the register window: limb `k mod L` of `r(k div L)` (R66). -/
def windowEntry (L k : Nat) : Option MapEntry :=
  if h : k < L * Config.nreg then some (.limb ⟨k / L, Nat.div_lt_of_lt_mul h⟩ (k % L)) else none

/-- The address map (R64); `none` is what answers `buserr`: a misaligned (R70) or unmapped address. -/
def mapEntry (L addr : Nat) : Option MapEntry :=
  if addr % 4 ≠ 0 then none
  else if addr = ctrlAddr then some .ctrl
  else if addr = statusAddr then some .status
  else if addr = cmdAddr then some .cmd
  else if addr = capsAddr then some .caps
  else if addr < Config.regBase then none
  else windowEntry L ((addr - Config.regBase) / 4)

/-- The map as an access of some width meets it: "The only access width is 32 bits" (R71). -/
def portEntry (width : AccessWidth) (L addr : Nat) : Option MapEntry :=
  match width with
  | .word => mapEntry L addr
  | .byte => none
  | .half => none
  | .double => none

/-- The datum a mapped address reads as (R31, R35, R37, R38, R66). -/
def readEntry (s : State) : MapEntry → Word
  | .ctrl => ctrlWord s
  | .status => statusWord s
  | .cmd => s.cmdreg
  | .caps => capsWord s
  | .limb i j => readLimb s i j

/-- The port's answer to a read (R61). -/
def readReply (width : AccessWidth) (addr : Nat) (s : State) : Reply :=
  match portEntry width s.limbs addr with
  | some e => { response := .ok, datum := some (readEntry s e) }
  | none => { response := .buserr, datum := some 0 }

/-- `MemRead(addr, 4)` (R61): "A read never changes engine state". -/
def hostRead (width : AccessWidth) (addr : Nat) (s : State) : State :=
  withReply (readReply width addr s) s

/-- The answer `ok` to a write. -/
def writeOk : Reply :=
  { response := .ok, datum := none }

/-- The answer `buserr` to a write (R62). -/
def writeBuserr : Reply :=
  { response := .buserr, datum := none }

/-- An admitted write of `CTRL` (R31): bit 1 is the soft reset (R32) and then nothing else of the datum matters; otherwise bit
0 is the new `IE` and bit 2 clears `DONE` (R33). -/
def controlWrite (v : Word) (s : State) : State :=
  if v.getLsbD 1 then resetEngine s
  else { s with ie := v.getLsbD 0, done := if v.getLsbD 2 then false else s.done }

/-- The acceptance of a command word (R44): step 1, then decoding (step 2, fault 1), then the command's own steps 3 and 4. -/
def acceptCommand (w : Word) (s : State) : Result :=
  match decode w with
  | .error _ => .next (raiseFault .illegal (latchCommand w s))
  | .ok i => exec i (latchCommand w s)

/-- A write to `CMD`, by the gates of R254: faulted, `buserr` and no change (R68); busy, dropped, `buserr` and fault 4 (R67);
else acceptance. -/
def commandWrite (w : Word) (s : State) : Result :=
  if s.err then .next (withReply writeBuserr s)
  else if s.busy then .next (withReply writeBuserr (raiseFault .busy s))
  else acceptCommand w (withReply writeOk s)

/-- A write to the register window, by the same gates (R66, R67, R68). -/
def windowWrite (i : Reg) (j : Nat) (d : Word) (s : State) : State :=
  if s.err then withReply writeBuserr s
  else if s.busy then withReply writeBuserr (raiseFault .busy s)
  else withReply writeOk (writeLimb i j d s)

/-- `MemWrite(addr, 4, v)` (R62). `STATUS` and `CAPS` are read only (R64). -/
def hostWrite (width : AccessWidth) (addr : Nat) (v : Word) (s : State) : Result :=
  match portEntry width s.limbs addr with
  | none => .next (withReply writeBuserr s)
  | some .ctrl => .next (withReply writeOk (controlWrite v s))
  | some .status => .next (withReply writeBuserr s)
  | some .cmd => commandWrite v s
  | some .caps => .next (withReply writeBuserr s)
  | some (.limb i j) => .next (windowWrite i j v s)

end Sys2Proof.Machine
end

