-- ==== Sys2Proof/Machine/Agents.lean ====
section
/-! DEFINITION. The steps of R310 other than the host's: the engine, the random source, the hardware reset; and which step an
event of the schedule is. -/

namespace Sys2Proof.Machine

/-- The engine's own step (R310): while running, the next step of the command in `CMDREG` (R26, R37). In the other states of
R46 the engine has none, and the event passes. -/
def engineStep (s : State) : Result :=
  match engineState s with
  | .running =>
    match decode s.cmdreg with
    | .ok i => exec i s
    | .error _ => .fault .cmdregNotACommand
  | .idle => .next s
  | .waiting => .next s
  | .faulted => .next s

/-- An invisible pass of the command in flight: only hidden state changes (R42). -/
def passStep (s : State) : State :=
  match engineState s with
  | .running => { s with hidden := s.hidden.map passInFlight }
  | .idle => s
  | .waiting => s
  | .faulted => s

/-- The receipt of an answer to a request with bounds `b`: out of bounds is fault 5 (R166, R167). -/
def receiveAnswer (val : Nat) (b : Bounds) (h : InFlight) (s : State) : State :=
  if val < b.lo ∨ b.hi < val then raiseFault .rand s else receiveDraw (startTrial val h) s

/-- The random source's step (R166 events 2 and 3, R310). With no request outstanding an answer is ignored (R292). -/
def answerStep (val : Nat) (s : State) : Result :=
  match engineState s with
  | .waiting =>
    match s.draw, s.hidden with
    | some b, some h => .next (receiveAnswer val b h s)
    | some _, none => .fault .notInFlight
    | none, some _ => .fault .notInFlight
    | none, none => .fault .notInFlight
  | .idle => .next s
  | .running => .next s
  | .faulted => .next s

/-- Hardware reset asserted (R290). -/
def assertReset (s : State) : State :=
  { resetEngine s with resetHeld := true }

/-- Hardware reset released (R290). -/
def releaseReset (s : State) : State :=
  { s with resetHeld := false }

/-- A host transaction while reset is held: the engine "answers no transaction" (R290). -/
def unanswered (s : State) : State :=
  { s with reply := none }

/-- An event while reset is held: "the engine does nothing" (R290). -/
def heldEvent (e : Event) (s : State) : State :=
  match e with
  | .read _ _ => unanswered s
  | .write _ _ _ => unanswered s
  | .engine => s
  | .pass => s
  | .answer _ => s
  | .resetAssert => assertReset s
  | .resetRelease => releaseReset s

/-- An event while reset is not held (R310). -/
def freeEvent (e : Event) (s : State) : Result :=
  match e with
  | .read width addr => .next (hostRead width addr s)
  | .write width addr v => hostWrite width addr v s
  | .engine => engineStep s
  | .pass => .next (passStep s)
  | .answer val => answerStep val s
  | .resetAssert => .next (assertReset s)
  | .resetRelease => .next (releaseReset s)

/-- One event (R310). -/
def takeEvent (e : Event) (s : State) : Result :=
  if s.resetHeld then .next (heldEvent e s) else freeEvent e s

/-- Every engine field as in the idle state of R46, the rest kept: what a `CMD` write needs to be an acceptance (R44). -/
def idled (s : State) : State :=
  { s with
    busy := false
    err := false
    rwait := false
    errcode := 0
    hidden := none
    draw := none
    resetHeld := false }

end Sys2Proof.Machine
end

