-- ==== Sys2Proof/Machine/Step.lean ====
section
/-! DEFINITION. One step of the machine, and where a program's next command is placed. -/

namespace Sys2Proof.Machine

/-- One step: the event at the head of the schedule. When no event is scheduled the engine, which always goes on by itself
(R308), takes its step (log 3). -/
def step (s : State) : Host.Outcome State Fault Refusal :=
  match s.schedule with
  | [] => takeEvent .engine s
  | e :: rest => takeEvent e (withSchedule rest s)

/-- The state in which the very next step runs the command word `w` (bits at and above `nbits` are 0): an idle engine, and
the host's write of the word to `CMD` at the head of the schedule (R44, R90; log 4). -/
def State.withFetchWord (s : State) (nbits w : Nat) : State :=
  { idled s with
    schedule := .write .word cmdAddr (BitVec.ofNat 32 (w % 2 ^ nbits)) :: s.schedule }

end Sys2Proof.Machine
end

