-- ==== Sys2Proof/Machine/Assembly.lean ====
section
/-! DEFINITION. The assembler syntax of a command (R102) and canonical printing (R105), over lists of characters. -/

namespace Sys2Proof.Machine

/-- A digit of a number in decimal or hexadecimal (capitals). -/
def digitChar (d : Nat) : Char :=
  if d < 10 then Char.ofNat (48 + d) else Char.ofNat (55 + d)

/-- A number up to 999 in decimal, without leading zeros. -/
def decimal (v : Nat) : List Char :=
  if v < 10 then [digitChar v]
  else if v < 100 then [digitChar (v / 10), digitChar (v % 10)]
  else [digitChar (v / 100 % 10), digitChar (v / 10 % 10), digitChar (v % 10)]

/-- Eight hexadecimal digits, the `%08X` of R105. -/
def hex8 (w : Word) : List Char :=
  [7, 6, 5, 4, 3, 2, 1, 0].map (fun k => digitChar (w.toNat / 16 ^ k % 16))

/-- `r0` to `r7`. -/
def regName (r : Reg) : List Char :=
  ['r', digitChar r.val]

/-- Operands separated by a comma and a space. -/
def joinOperands : List (List Char) → List Char
  | [] => []
  | [x] => x
  | x :: y :: rest => x ++ [',', ' '] ++ joinOperands (y :: rest)

/-- The operands of an instruction in the order of R102: destination first, modulus last. -/
def operandTexts : Instr → List (List Char)
  | .modred rd ra rm => [regName rd, regName ra, regName rm]
  | .modadd rd ra rb rm => [regName rd, regName ra, regName rb, regName rm]
  | .modsub rd ra rb rm => [regName rd, regName ra, regName rb, regName rm]
  | .modmul rd ra rb rm => [regName rd, regName ra, regName rb, regName rm]
  | .powmod rd ra rb rm => [regName rd, regName ra, regName rb, regName rm]
  | .witness ra rm => [regName ra, regName rm]
  | .isprime rm rounds => [regName rm, '#' :: decimal rounds]

/-- An instruction as its row of R102, the immediate in decimal (R105). -/
def printInstr (i : Instr) : List Char :=
  (opMnemonic (instrOp i)).toList ++ [' '] ++ joinOperands (operandTexts i)

/-- Canonical printing of any word (R105). -/
def printWord (w : Word) : List Char :=
  match decode w with
  | .ok i => printInstr i
  | .error _ => ".illegal 0x".toList ++ hex8 w

/-- Blank space between the parts of a line. -/
def isBlank (c : Char) : Bool :=
  c == ' ' || c == '\t'

/-- A text without blanks at its ends. -/
def trimBlanks (cs : List Char) : List Char :=
  ((cs.dropWhile isBlank).reverse.dropWhile isBlank).reverse

/-- The pieces between commas. -/
def splitCommas : List Char → List (List Char)
  | [] => [[]]
  | c :: cs =>
    if c = ',' then [] :: splitCommas cs
    else
      match splitCommas cs with
      | [] => [[c]]
      | p :: ps => (c :: p) :: ps

/-- A digit's value in a base, if it is a digit of that base. Hexadecimal digits may be of either case. -/
def digitValue (base : Nat) (c : Char) : Option Nat :=
  let n := c.toNat
  let v := if 48 ≤ n ∧ n ≤ 57 then n - 48
    else if 65 ≤ n ∧ n ≤ 70 then n - 55
    else if 97 ≤ n ∧ n ≤ 102 then n - 87
    else base
  if v < base then some v else none

/-- A number in a base, given the value of what stands before. -/
def parseDigits (base : Nat) : Nat → List Char → Option Nat
  | acc, [] => some acc
  | acc, c :: cs =>
    match digitValue base c with
    | some d => parseDigits base (acc * base + d) cs
    | none => none

/-- `#` followed by a decimal or `0x` hexadecimal number 0 to 255 (R102); a larger one is refused. -/
def parseImm : List Char → Option Nat
  | '#' :: '0' :: 'x' :: c :: cs => (parseDigits 16 0 (c :: cs)).filter (fun v => decide (v ≤ Config.roundsMax))
  | '#' :: c :: cs => (parseDigits 10 0 (c :: cs)).filter (fun v => decide (v ≤ Config.roundsMax))
  | _ => none

/-- `r0` to `r7`; a register number above 7 is refused (R102). -/
def parseReg : List Char → Option Reg
  | ['r', c] =>
    match digitValue 10 c with
    | some d => if h : d < Config.nreg then some ⟨d, h⟩ else none
    | none => none
  | _ => none

/-- Three registers. -/
def parseRegs3 (f : Reg → Reg → Reg → Instr) : List (List Char) → Option Instr
  | [x, y, z] => do return f (← parseReg x) (← parseReg y) (← parseReg z)
  | _ => none

/-- Four registers. -/
def parseRegs4 (f : Reg → Reg → Reg → Reg → Instr) : List (List Char) → Option Instr
  | [x, y, z, u] => do return f (← parseReg x) (← parseReg y) (← parseReg z) (← parseReg u)
  | _ => none

/-- Two registers. -/
def parseRegs2 (f : Reg → Reg → Instr) : List (List Char) → Option Instr
  | [x, y] => do return f (← parseReg x) (← parseReg y)
  | _ => none

/-- A register and an immediate. -/
def parseRegImm (f : Reg → Nat → Instr) : List (List Char) → Option Instr
  | [x, y] => do return f (← parseReg x) (← parseImm y)
  | _ => none

/-- The operands of a row (R102): a missing or extra one is refused. -/
def parseOperands (op : Op) (parts : List (List Char)) : Option Instr :=
  match op with
  | .modred => parseRegs3 .modred parts
  | .modadd => parseRegs4 .modadd parts
  | .modsub => parseRegs4 .modsub parts
  | .modmul => parseRegs4 .modmul parts
  | .powmod => parseRegs4 .powmod parts
  | .witness => parseRegs2 .witness parts
  | .isprime => parseRegImm .isprime parts

/-- The row with a mnemonic, in capitals (R102). -/
def opOfMnemonic (cs : List Char) : Option Op :=
  [Op.modred, .modadd, .modsub, .modmul, .powmod, .witness, .isprime].find?
    (fun op => (opMnemonic op).toList == cs)

/-- One command line (R102): "A semicolon starts a comment". DESIGN CHOICE (log 18), where R102 is silent: blanks before the
mnemonic and at the end of the line are taken, and a blank or comment-only line, which holds no command, answers `none` as a
refused line does. -/
def parseInstr (line : List Char) : Option Instr :=
  let text := trimBlanks (line.takeWhile (fun c => c != ';'))
  match opOfMnemonic (text.takeWhile (fun c => !isBlank c)) with
  | some op => parseOperands op ((splitCommas (text.dropWhile (fun c => !isBlank c))).map trimBlanks)
  | none => none

/-- The word of a command line (R102, R106). -/
def assemble (line : List Char) : Option Word :=
  (parseInstr line).map encode

end Sys2Proof.Machine
end

