-- ==== Sys2Proof/Machine/Script.lean ====
section
/-! DEFINITION. The host script's lines as transactions (R82, R106), and several steps in a row. Machine/HostRun.lean runs the
lines against an engine. -/

namespace Sys2Proof.Machine

/-- `WR addr, data` (R106). -/
def scriptWr (addr : Nat) (data : Word) : Event :=
  .write .word addr data

/-- `RD addr` (R106). -/
def scriptRd (addr : Nat) : Event :=
  .read .word addr

/-- `CMD <command>` (R106); a command without an encoding, a count above 255, is refused (R94, R102). -/
def scriptCmd (i : Instr) : Option Event :=
  if i.wellFormed then some (scriptWr cmdAddr (encode i)) else none

/-- `SRST` (R106). -/
def scriptSrst : Event :=
  scriptWr ctrlAddr 2

/-- `LDR ri, value` (R82): `L` writes, limb 0 first. It is asked only of values below `2^W`: see `scriptLdr`. -/
def ldrWrites (L : Nat) (i : Reg) (value : Nat) : List Event :=
  (List.range L).map (fun j => scriptWr (limbAddr L i j) (limbOf j value))

/-- `LDR ri, value` as the assembler takes it: a value of `2^W` or more "has no encoding and is refused" (R82). -/
def scriptLdr (L : Nat) (i : Reg) (value : Nat) : Option (List Event) :=
  if value < 2 ^ (32 * L) then some (ldrWrites L i value) else none

/-- `STR ri` (R82): `L` reads, limb 0 first. -/
def scriptStr (L : Nat) (i : Reg) : List Event :=
  (List.range L).map (fun j => scriptRd (limbAddr L i j))

/-- The number a list of limbs stands for, limb 0 first: the sum of `limb_j * 2^(32*j)` (R69, R82). -/
def limbsValue : List Word → Nat
  | [] => 0
  | d :: ds => d.toNat + 2 ^ 32 * limbsValue ds

/-- One poll of `WAIT` (R106). -/
def scriptPoll : Event :=
  scriptRd statusAddr

/-- Whether `WAIT` ends with this value of `STATUS`: `BUSY`, bit 0, is clear (R106). -/
def waitOver (status : Word) : Bool :=
  !status.getLsbD 0

/-- `k` steps, stopping where one does not answer a next state. -/
def steps : Nat → State → Result
  | 0, s => .next s
  | k + 1, s =>
    match step s with
    | .next s' => steps k s'
    | .fault r => .fault r
    | .refused r => .refused r

end Sys2Proof.Machine
end

