-- ==== Sys2Proof/Machine/HostRun.lean ====
section
/-! DEFINITION. A host script run against an engine, line by line (R82, R106, R229): what each line does and the value the host
keeps of it. `IF` is host code (R106): the sequences that need it decide between lines. -/

namespace Sys2Proof.Machine

/-- What ends a host sequence before its result (R219, R222, R226, R228, R229), and what ends a run of it in the model. -/
inductive HostError where
  /-- A character's code does not fit in one byte (R226). -/
  | encodingOverflow
  /-- The encoded integer is not below the modulus (R222). -/
  | messageTooLarge
  /-- The bit length is too small, or larger than the instance serves (R219). -/
  | invalidRange
  /-- The iteration budget of a search is used up (R228). -/
  | searchExhausted
  /-- The engine was found faulted after `WAIT`, and was soft-reset (R229). -/
  | engineFault
  /-- The line has no encoding: a value of `2^W` or more (R82) or a count above 255 (R94). -/
  | noEncoding
  /-- The port gives no answer: reset is held (R290), or the model stops (log 11). -/
  | noAnswer
  /-- The run's `between` is used up and `BUSY` is still 1: the host would go on polling (R106, R308). -/
  | stillBusy
  /-- A draw is asked from a range that holds no integer. -/
  | emptyRange
  /-- The run's `draws` are used up. -/
  | drawsExhausted
  deriving DecidableEq, Repr

/-- An engine with the host that drives it. -/
structure Session where
  /-- The engine as the host's next transaction will find it. -/
  engine : State
  /-- What the other agents do before the host's next transaction, before the one after it, and so on; nothing once the list is
  used up (R264, R310; log 24). -/
  between : List (List Event)
  /-- What the host's own source gives (R211; log 25). -/
  draws : List Nat
  deriving DecidableEq, Repr

/-- A host sequence: a result or an error, and the session it leaves. -/
abbrev HostRun (α : Type) := ExceptT HostError (StateM Session) α

/-- Several events in a row. -/
def takeEvents : List Event → State → Result
  | [], s => .next s
  | e :: es, s =>
    match takeEvent e s with
    | .next t => takeEvents es t
    | .fault r => .fault r
    | .refused r => .refused r

/-- One host transaction, after what the other agents do before it (R60, R264). -/
def hostAccess (e : Event) : HostRun Reply := fun σ =>
  match takeEvents (σ.between.headD [] ++ [e]) σ.engine with
  | .next s =>
    let σ' := { σ with engine := s, between := σ.between.tail }
    match s.reply with
    | some r => (.ok r, σ')
    | none => (.error .noAnswer, σ')
  | .fault _ => (.error .noAnswer, σ)
  | .refused _ => (.error .noAnswer, σ)

/-- Several transactions in a row, the answers kept in order. -/
def hostAccesses : List Event → HostRun (List Reply)
  | [] => pure []
  | e :: es => do return (← hostAccess e) :: (← hostAccesses es)

/-- The datum of a read's answer (R61). -/
def replyDatum (r : Reply) : Word :=
  r.datum.getD 0

/-- The operand width the host takes from `CAPS` (R38, R304). -/
def hostWidth : HostRun Nat := do return operandWidth (← get).engine

/-- A host-side check before any transaction (R229). -/
def hostRequire (ok : Bool) (e : HostError) : HostRun Unit :=
  if ok then pure () else throw e

/-- A line whose expansion may be refused by the assembler (R82, R102). DESIGN CHOICE (log 27): it is refused at its turn. -/
def hostExpand (events : Option (List Event)) : HostRun Unit :=
  match events with
  | some evs => discard (hostAccesses evs)
  | none => throw .noEncoding

/-- `WR addr, data` (R106). What the host does about a `buserr` is its own affair (R63): the answer is its value. -/
def hostWr (addr : Nat) (data : Word) : HostRun Reply :=
  hostAccess (scriptWr addr data)

/-- `RD addr`, "value kept by the host" (R106). -/
def hostRd (addr : Nat) : HostRun Word := do return replyDatum (← hostAccess (scriptRd addr))

/-- `CMD <command>` (R106). -/
def hostCmd (i : Instr) : HostRun Unit :=
  hostExpand ((scriptCmd i).map fun e => [e])

/-- `LDR ri, value` (R82). -/
def hostLdr (i : Reg) (value : Nat) : HostRun Unit := do
  hostExpand (scriptLdr (← get).engine.limbs i value)

/-- `STR ri`: "yields `sum over j of MemRead(...) * 2^(32*j)`" (R82). -/
def hostStr (i : Reg) : HostRun Nat := do
  return limbsValue ((← hostAccesses (scriptStr (← get).engine.limbs i)).map replyDatum)

/-- The loop of `WAIT`: at most `polls` polls. -/
def hostWaitLoop : Nat → HostRun Word
  | 0 => throw .stillBusy
  | polls + 1 => do
    let status := replyDatum (← hostAccess scriptPoll)
    if waitOver status then return status else hostWaitLoop polls

/-- `WAIT`: "repeat `RD 0x004` until the value has `BUSY = 0`", the last value kept (R106). Once `between` is used up nothing
moves the engine any more, so one poll after its end decides. -/
def hostWait : HostRun Word := do
  hostWaitLoop ((← get).between.length + 1)

/-- `SRST` (R106). -/
def hostSrst : HostRun Unit :=
  discard (hostAccess scriptSrst)

/-- `WAIT ; if ERR: report failure`: the engine is soft-reset and the failure reported, with no retry (R229). -/
def hostWaitChecked : HostRun Word := do
  let status ← hostWait
  if status.getLsbD 3 then
    hostSrst
    throw .engineFault
  else return status

/-- `host_draw(lo, hi)`: "a uniform integer in `[lo, hi]`, bounds included" (R211). The source's number is brought into the range,
of which it can give every integer (log 25). -/
def hostDraw (range : Bounds) : HostRun Nat := fun σ =>
  if range.hi < range.lo then (.error .emptyRange, σ)
  else
    match σ.draws with
    | [] => (.error .drawsExhausted, σ)
    | d :: ds => (.ok (range.lo + d % (range.hi + 1 - range.lo)), { σ with draws := ds })

/-- The lines of a host script, `IF` apart (R106). -/
inductive ScriptLine where
  | wr (addr : Nat) (data : Word)
  | rd (addr : Nat)
  | cmd (i : Instr)
  | ldr (i : Reg) (value : Nat)
  | str (i : Reg)
  | wait
  | srst
  deriving DecidableEq, Repr

/-- One line, with the value the host keeps of it. -/
def runLine : ScriptLine → HostRun (Option Nat)
  | .wr addr data => do let _ ← hostWr addr data; return none
  | .rd addr => do return some (← hostRd addr).toNat
  | .cmd i => do hostCmd i; return none
  | .ldr i value => do hostLdr i value; return none
  | .str i => do return some (← hostStr i)
  | .wait => do return some (← hostWait).toNat
  | .srst => do hostSrst; return none

/-- A straight-line program: "a list of host-port transactions and pseudo-operations, executed in order by the host" (R106).
DESIGN CHOICE (log 27): a line the assembler refuses (R82, R94) ends the run when its turn comes, after the lines before it. -/
def runScript : List ScriptLine → HostRun (List Nat)
  | [] => pure []
  | line :: lines => do return (← runLine line).toList ++ (← runScript lines)

end Sys2Proof.Machine
end

