-- ==== Sys2Proof/Machine/HostSequences.lean ====
section
/-! DEFINITION. The document's host software (49_host_sequences.md), which the engine's scope keeps outside the hardware (R5).
Every operation that uses the engine is its script run against one; the arithmetic between lines is exact (R212). The
optional cap `MAX_TRIES` of a search is `maxTries`, `none` for "absent = no cap, the literal behaviour" (R228). -/

namespace Sys2Proof.Machine

/-- `(p, a)` (R218). -/
structure PrivateKey where
  p : Nat
  a : Nat
  deriving DecidableEq, Repr

/-- `(p, r, b)` (R218). -/
structure PublicKey where
  p : Nat
  r : Nat
  b : Nat
  deriving DecidableEq, Repr

/-- `(gamma, delta)` (R220). -/
structure Ciphertext where
  gamma : Nat
  delta : Nat
  deriving DecidableEq, Repr

/-- The option `GEN_POLARITY` (R216). -/
inductive GenPolarity where
  /-- Reading (a), the default: accept when neither power is 1. -/
  | a
  /-- Reading (b): reject only when both are 1. -/
  | b
  deriving DecidableEq, Repr

/-! ## Text codec -/

/-- The masking constant (R224). -/
abbrev maskConstant : Nat := 0xAA

/-- `ENCODE` of a string given by its character codes (R224, R226). -/
def encodeText : List Nat → Except HostError Nat
  | [] => .ok 0
  | c :: cs =>
    if c < 256 then
      match encodeText cs with
      | .ok m => .ok ((maskConstant ^^^ c) + 256 * m)
      | .error e => .error e
    else .error .encodingOverflow

/-- The loop of `DECODE` (R225); the fuel bounds the number of digits. -/
def decodeDigits : Nat → Nat → List Nat
  | 0, _ => []
  | k + 1, n => if n = 0 then [] else (maskConstant ^^^ (n % 256)) :: decodeDigits k (n / 256)

/-- `DECODE` (R225): the test comes before the first digit, so 0 decodes to the empty string. -/
def decodeText (n : Nat) : List Nat :=
  decodeDigits (bitlen n) n

/-! ## Prime search -/

/-- The test of a candidate: `LDR r0, c`, `CMD ISPRIME r0, #100`, `WAIT`, and `T` (R213, R214). -/
def hostIsprime (c : Nat) : HostRun Bool := do
  hostLdr 0 c
  hostCmd (.isprime 0 100)
  let status ← hostWaitChecked
  return status.getLsbD 2

/-- The tries a search may make: the cap, or, without one, more than the search can make before it ends by itself (R228). -/
def triesOf (maxTries : Option Nat) (own : Nat) : Nat :=
  maxTries.getD own

/-- The loop of `RANDOMPRIME` (R213). -/
def randomPrimeLoop (range : Bounds) : Nat → HostRun Nat
  | 0 => throw .searchExhausted
  | tries + 1 => do
    let c ← hostDraw range
    if ← hostIsprime c then return c else randomPrimeLoop range tries

/-- `RANDOMPRIME(low, high)`, "requires `high < 2^W`" (R213). Each try draws once, so without a cap the loop goes on as long as
the source gives numbers. -/
def randomPrime (maxTries : Option Nat) (range : Bounds) : HostRun Nat := do
  hostRequire (range.hi < 2 ^ (← hostWidth)) .noEncoding
  randomPrimeLoop range (triesOf maxTries ((← get).draws.length + 1))

/-- The loop of `SAFEPRIME` (R214). -/
def safePrimeLoop (maxTries : Option Nat) (range : Bounds) : Nat → HostRun Nat
  | 0 => throw .searchExhausted
  | tries + 1 => do
    let q ← randomPrime maxTries range
    if ← hostIsprime (2 * q + 1) then return 2 * q + 1 else safePrimeLoop maxTries range tries

/-- `SAFEPRIME(low, high)`, "requires `2*high + 1 < 2^W`": the result lies in `[2*low + 1, 2*high + 1]` (R214). Each try draws at
least once. -/
def safePrime (maxTries : Option Nat) (range : Bounds) : HostRun Nat := do
  hostRequire (2 * range.hi + 1 < 2 ^ (← hostWidth)) .noEncoding
  safePrimeLoop maxTries range (triesOf maxTries ((← get).draws.length + 1))

/-! ## Generator search -/

/-- What the two findings `g^2 = 1` and `g^q = 1` decide under each reading (R216). -/
def generatorAccepted (polarity : GenPolarity) (c1 c2 : Bool) : Bool :=
  match polarity with
  | .a => !c1 && !c2
  | .b => !(c1 && c2)

/-- The value of `GENACCEPT(g, p)` (R216). -/
def genAcceptValue (polarity : GenPolarity) (g p : Nat) : Bool :=
  generatorAccepted polarity (modmul g g p == 1) (powmod g ((p - 1) / 2) p == 1)

/-- `GENACCEPT(g, p)` (R216). -/
def genAccept (polarity : GenPolarity) (g p : Nat) : HostRun Bool := do
  hostLdr 0 p
  hostLdr 1 g
  hostLdr 2 ((p - 1) / 2)
  hostCmd (.modmul 3 1 1 0)
  let _ ← hostWait
  hostCmd (.powmod 4 1 2 0)
  let _ ← hostWaitChecked
  let square ← hostStr 3
  let power ← hostStr 4
  return generatorAccepted polarity (square == 1) (power == 1)

/-- The scan of `FINDGEN` (R217): `g` is not reduced, and one that does not fit in `W` bits is refused by `LDR`. -/
def generatorScan (polarity : GenPolarity) (p : Nat) : Nat → Nat → HostRun Nat
  | 0, _ => throw .searchExhausted
  | tries + 1, g => do
    if ← genAccept polarity g p then return g else generatorScan polarity p tries (g + 1)

/-- `FINDGEN(seed, p)` (R217). Without a cap the scan goes on until `g` no longer fits in `W` bits. -/
def findGenerator (polarity : GenPolarity) (maxTries : Option Nat) (seed p : Nat) : HostRun Nat := do
  generatorScan polarity p (triesOf maxTries (2 ^ (← hostWidth) - seed + 1)) seed

/-! ## Keys -/

/-- The range of the inner prime, `[2^(bitLength-1), 2^bitLength - 1]` (R215, R218). -/
def primeRange (bitLength : Nat) : Bounds :=
  { lo := 2 ^ (bitLength - 1), hi := 2 ^ bitLength - 1 }

/-- The range of the private exponent, `[(p-1)/2, p-1]` (R218). -/
def exponentRange (p : Nat) : Bounds :=
  { lo := (p - 1) / 2, hi := p - 1 }

/-- The seed of the generator scan, `2^16 + 1` (R218). -/
abbrev generatorSeed : Nat := 2 ^ 16 + 1

/-- The keys that belong to a modulus, a generator and a private exponent (R218, R230). -/
def keysOf (p r a : Nat) : PrivateKey × PublicKey :=
  ({ p := p, a := a }, { p := p, r := r, b := powmod r a p })

/-- The last part of `GENKEYS`: `b = r^a mod p` on the engine (R218). -/
def publishKeys (p r a : Nat) : HostRun (PrivateKey × PublicKey) := do
  hostLdr 0 p
  hostLdr 1 r
  hostLdr 2 a
  hostCmd (.powmod 3 1 2 0)
  let _ ← hostWaitChecked
  let b ← hostStr 3
  return ({ p := p, a := a }, { p := p, r := r, b := b })

/-- `GENKEYS(bitLength)` (R215, R218, R219). -/
def generateKeys (polarity : GenPolarity) (maxTries : Option Nat) (bitLength : Nat) : HostRun (PrivateKey × PublicKey) := do
  let W ← hostWidth
  hostRequire (4 ≤ bitLength && bitLength + 1 ≤ W) .invalidRange
  let p ← safePrime maxTries (primeRange bitLength)
  let r ← findGenerator polarity maxTries generatorSeed p
  let a ← hostDraw (exponentRange p)
  publishKeys p r a

/-! ## Cipher -/

/-- The range of the per-message exponent, `[1, p-2]` (R220). -/
def messageExponentRange (p : Nat) : Bounds :=
  { lo := 1, hi := p - 2 }

/-- The value of `ENCRYPT(m, (p, r, b))` for the exponent `k` it has drawn (R220, R222). -/
def encryptValue (m : Nat) (pub : PublicKey) (k : Nat) : Except HostError Ciphertext :=
  if pub.p ≤ m then .error .messageTooLarge
  else .ok { gamma := powmod pub.r k pub.p, delta := modmul m (powmod pub.b k pub.p) pub.p }

/-- The value of `DECRYPT((gamma, delta), (p, a))` (R221): a zero modulus is the engine's fault 2. -/
def decryptValue (c : Ciphertext) (prv : PrivateKey) : Except HostError Nat :=
  if prv.p = 0 then .error .engineFault
  else .ok (modmul (powmod c.gamma (modsub (modsub 0 1 prv.p) prv.a prv.p) prv.p) c.delta prv.p)

/-- `ENCRYPT(m, (p, r, b))` (R220, R222): `k` is drawn inside the call. -/
def encrypt (m : Nat) (pub : PublicKey) : HostRun Ciphertext := do
  hostRequire (m < pub.p) .messageTooLarge
  let k ← hostDraw (messageExponentRange pub.p)
  hostLdr 0 pub.p
  hostLdr 1 pub.r
  hostLdr 2 pub.b
  hostLdr 3 k
  hostLdr 4 m
  hostCmd (.powmod 5 1 3 0)
  let _ ← hostWait
  hostCmd (.powmod 6 2 3 0)
  let _ ← hostWait
  hostCmd (.modmul 6 4 6 0)
  let _ ← hostWaitChecked
  let gamma ← hostStr 5
  let delta ← hostStr 6
  return { gamma := gamma, delta := delta }

/-- `DECRYPT((gamma, delta), (p, a))` (R221), the exponent formed in the engine by two `MODSUB`. -/
def decrypt (c : Ciphertext) (prv : PrivateKey) : HostRun Nat := do
  hostLdr 0 prv.p
  hostLdr 1 prv.a
  hostLdr 2 c.gamma
  hostLdr 3 c.delta
  hostLdr 4 0
  hostLdr 5 1
  hostCmd (.modsub 6 4 5 0)
  let _ ← hostWait
  hostCmd (.modsub 6 6 1 0)
  let _ ← hostWait
  hostCmd (.powmod 7 2 6 0)
  let _ ← hostWait
  hostCmd (.modmul 7 7 3 0)
  let _ ← hostWaitChecked
  hostStr 7

end Sys2Proof.Machine
end

