-- ==== Sys2Proof/Safety.lean ====
section
/-! DEFINITION. What counts as a good end of a run (R311), which instance serves a key length (R215), and the invariant of the
machine: the flag invariants of R34 and what the hidden state is at every moment (R42 to R46). -/

namespace Sys2Proof.Machine

/-- A host transaction: a step of the host script (R106, R310). -/
def isHostEvent : Event → Bool
  | .read _ _ => true
  | .write _ _ _ => true
  | .engine => false
  | .pass => false
  | .answer _ => false
  | .resetAssert => false
  | .resetRelease => false

/-- The next event is the host script's last line: its transaction, and none of the host's after it (R311). -/
def isLastLine : List Event → Bool
  | [] => false
  | e :: rest => isHostEvent e && rest.all fun e' => !isHostEvent e'

/-- The state right after the script's last line, looked for in at most so many steps; `none` without one. DESIGN CHOICE (log
28): a last line counts as executed by its step, answered or not (reset may be held, R290). -/
def afterLastLine : Nat → State → Option State
  | 0, _ => none
  | k + 1, s =>
    match step s with
    | .next t => if isLastLine s.schedule then some t else afterLastLine k t
    | .fault _ => none
    | .refused _ => none

/-- The end of the run of the script that is still to come in `s`, "when its last line has been executed" (R311; log 26). DESIGN
CHOICE (log 29): an empty script, with no last line, has no end here. -/
def State.scriptEnd (s : State) : Option State :=
  afterLastLine s.schedule.length s

/-- The end of the run of a script by a host session, where all its lines could be executed (R106, R311). DESIGN CHOICE (log
28): a line whose transaction gets no answer is not executed, and the run has no end. DESIGN CHOICE (log 29): an empty script
ends at once, in the engine as it stands. -/
def Session.scriptEnd (lines : List ScriptLine) (h : Session) : Option State :=
  match (runScript lines).run.run h with
  | (.ok _, h') => some h'.engine
  | (.error _, _) => none

/-- What R311 asks of the moment of a good end: no fault, no command in flight, no draw outstanding. -/
def goodEnd (t : State) : Bool :=
  !t.err && !t.busy && t.draw.isNone

/-- What R311 says of the moment of a bad end. -/
def badEnd (t : State) : Bool :=
  t.err

/-- "A script that stops while `BUSY = 1` has not finished its last command" (R311). -/
def unfinishedEnd (t : State) : Bool :=
  t.busy

/-- The run of the script to come in `s` is good (R311). -/
def State.good (s : State) : Bool :=
  s.scriptEnd.any goodEnd

/-- The run of the script to come in `s` is bad (R311). -/
def State.bad (s : State) : Bool :=
  s.scriptEnd.any badEnd

/-- The script to come in `s` stops with its last command unfinished (R311). -/
def State.unfinished (s : State) : Bool :=
  s.scriptEnd.any unfinishedEnd

/-- The run of a script by a host session is good (R311). -/
def Session.good (lines : List ScriptLine) (h : Session) : Bool :=
  (h.scriptEnd lines).any goodEnd

/-- The run of a script by a host session is bad (R311). -/
def Session.bad (lines : List ScriptLine) (h : Session) : Bool :=
  (h.scriptEnd lines).any badEnd

/-- The script run by a host session stops with its last command unfinished (R311). -/
def Session.unfinished (lines : List ScriptLine) (h : Session) : Bool :=
  (h.scriptEnd lines).any unfinishedEnd

/-- An instance can serve `generateKeys(bitLength)` only with `W >= bitLength + 1` (R215, R304). -/
def State.servesKeyLength (s : State) (bitLength : Nat) : Bool :=
  decide (bitLength + 1 ≤ operandWidth s)

/-- The idle row of R46. -/
abbrev State.Idle (s : State) : Prop :=
  s.busy = false ∧ s.rwait = false ∧ s.err = false

/-- The running row of R46. -/
abbrev State.Running (s : State) : Prop :=
  s.busy = true ∧ s.rwait = false ∧ s.err = false

/-- The waiting row of R46. -/
abbrev State.Waiting (s : State) : Prop :=
  s.busy = true ∧ s.rwait = true ∧ s.err = false

/-- The faulted row of R46. -/
abbrev State.Faulted (s : State) : Prop :=
  s.busy = false ∧ s.rwait = false ∧ s.err = true

/-- The register a command writes (R22). -/
def instrDest : Instr → Option Reg
  | .modred rd _ _ => some rd
  | .modadd rd _ _ _ => some rd
  | .modsub rd _ _ _ => some rd
  | .modmul rd _ _ _ => some rd
  | .powmod rd _ _ _ => some rd
  | .witness _ _ => none
  | .isprime _ _ => none

/-- The registers a command reads, sources and modulus (R22). -/
def instrSources : Instr → List Reg
  | .modred _ ra rm => [ra, rm]
  | .modadd _ ra rb rm => [ra, rb, rm]
  | .modsub _ ra rb rm => [ra, rb, rm]
  | .modmul _ ra rb rm => [ra, rb, rm]
  | .powmod _ ra rb rm => [ra, rb, rm]
  | .witness ra rm => [ra, rm]
  | .isprime rm _ => [rm]

/-- Whether a command delivers its result in `T` (R29, R160). -/
def instrTests : Instr → Bool
  | .modred _ _ _ => false
  | .modadd _ _ _ _ => false
  | .modsub _ _ _ _ => false
  | .modmul _ _ _ _ => false
  | .powmod _ _ _ _ => false
  | .witness _ _ => true
  | .isprime _ _ => true

/-- The flag invariants of R34, in its order. -/
structure State.FlagInv (s : State) : Prop where
  err_busy : s.err = true → s.busy = false
  err_rwait : s.err = true → s.rwait = false
  err_done : s.err = true → s.done = false
  rwait_busy : s.rwait = true → s.busy = true
  busy_done : s.busy = true → s.done = false
  errcode_zero : s.err = false → s.errcode = 0
  errcode_range : s.err = true → 1 ≤ s.errcode.toNat ∧ s.errcode.toNat ≤ 5

/-- A POWMOD loop under way: its values are residues, its exponent fits a register, and it ends with `value`. -/
structure PowFits (W n value : Nat) (w : PowWork) : Prop where
  v_lt : w.v < n
  p_lt : w.p < n
  d_lt : w.d < 2 ^ W
  finishes : powFinish n w = value

/-- A WITNESS computation under way ends with the verdict of `witness(a, n)` (R162). -/
def WitnessFits (a n : Nat) (w : WitnessWork) : Prop :=
  witnessFinish a n w = witness a n

/-- A trial of ISPRIME under way (R170): its witness is in `[2, n - 2]` and its computation is that of R162. -/
structure TrialFits (n : Nat) (tr : Trial) : Prop where
  lo_le : 2 ≤ tr.a
  le_hi : tr.a ≤ n - 2
  fits : WitnessFits tr.a n tr.work

/-- The hidden state is one that instruction `i` has on its way (R42, R43): the operand checks have passed (R128, R163), and
the working part is on the way to the result of the latched operands. -/
def HiddenFits (W : Nat) (i : Instr) (h : InFlight) : Prop :=
  match i with
  | .modred _ _ _ => 1 ≤ h.n ∧ h.work = .field
  | .modadd _ _ _ _ => 1 ≤ h.n ∧ h.work = .field
  | .modsub _ _ _ _ => 1 ≤ h.n ∧ h.work = .field
  | .modmul _ _ _ _ => 1 ≤ h.n ∧ h.work = .field
  | .powmod _ _ _ _ => 1 ≤ h.n ∧ ∃ w, h.work = .pow w ∧ PowFits W h.n (powmod h.a h.b h.n) w
  | .witness _ _ => 2 ≤ h.n ∧ ∃ w, h.work = .witness w ∧ WitnessFits h.a h.n w
  | .isprime _ rounds =>
    ∃ k trial, h.work = .isPrime k trial ∧ k ≤ rounds ∧
      (k ≠ 0 → immediateDecision h.n = none) ∧ (∀ tr, trial = some tr → k ≠ 0 ∧ TrialFits h.n tr)

/-- A draw is outstanding for the hidden state `h` exactly as ISPRIME asks for it (R166, R170): bounds `[2, n - 2]`, in a
trial that has no witness yet. -/
def DrawFits (b : Bounds) (h : InFlight) : Prop :=
  b = drawBounds h.n ∧ ∃ k, k ≠ 0 ∧ h.work = .isPrime k none

/-- The invariant of the machine: the flags of R34; `BUSY` and `RWAIT` go with the hidden state and the draw they announce
(R43, R46); the command in flight is the one in `CMDREG` (R37); every operand fits its register (R9, R121); the instance
exists (R38); and a held reset leaves the reset state (R290). -/
structure State.Inv (s : State) : Prop where
  limbs_pos : 1 ≤ s.limbs
  limbs_le : s.limbs ≤ Config.maxLimbs
  flags : s.FlagInv
  regs_lt : ∀ r, readReg s r < 2 ^ operandWidth s
  busy_hidden : s.busy = s.hidden.isSome
  rwait_draw : s.rwait = s.draw.isSome
  operands_lt : ∀ h, s.hidden = some h →
    h.a < 2 ^ operandWidth s ∧ h.b < 2 ^ operandWidth s ∧ h.n < 2 ^ operandWidth s
  in_flight : ∀ h, s.hidden = some h → ∃ i, decode s.cmdreg = .ok i ∧ HiddenFits (operandWidth s) i h
  draw_fits : ∀ b h, s.draw = some b → s.hidden = some h → DrawFits b h
  drawless : ∀ h k, s.hidden = some h → h.work = .isPrime k none → s.draw = none → k = 0
  held_reset : s.resetHeld = true → s = assertReset s

end Sys2Proof.Machine
end

