-- ==== Sys2Proof/Certificates/Slice0/Obligations.lean ====
section
/-! DEFINITION. The statements for the provers. Each follows the rules of spec/ its docstring names. Rows of R46 (`Idle`,
`Running`, `Waiting`, `Faulted`) are premises on the flags alone; a state outside those rows is one R34 rules out. What `exec`
means in each row is the model's convention (log 17): acceptance on an idle engine, the engine's own step on a running one. A
result statement therefore applies `exec` twice, to the idle state and to the state accepted; a latched operand the command
does not name is 0 (log 12). -/

open Sys2Proof Sys2Proof.Machine

/-! ## Encoding -/

/-- R101: the eight worked encodings decode to the commands they stand for, and each illegal neighbour is refused, for the
reason given there. -/
def Obligations.WorkedEncodingsDecode : Prop :=
  decode 0x01210000 = .ok (.modred 2 1 0) ∧
  decode 0x02312000 = .ok (.modadd 3 1 2 0) ∧
  decode 0x03312000 = .ok (.modsub 3 1 2 0) ∧
  decode 0x04301700 = .ok (.modmul 3 0 1 7) ∧
  decode 0x08412000 = .ok (.powmod 4 1 2 0) ∧
  decode 0x10010000 = .ok (.witness 1 0) ∧
  decode 0x11000064 = .ok (.isprime 0 100) ∧
  decode 0x11000500 = .ok (.isprime 5 0) ∧
  decode 0x00000000 = .error (.unassignedOpcode 0x00) ∧
  decode 0x01211000 = .error (.nonZeroField .rb) ∧
  decode 0x04301701 = .error (.nonZeroField .imm8) ∧
  decode 0x04801700 = .error (.badRegister .rd) ∧
  decode 0x10110000 = .error (.nonZeroField .rd) ∧
  decode 0x11010064 = .error (.nonZeroField .ra) ∧
  decode 0x11000864 = .error (.badRegister .rm) ∧
  decode 0x05301700 = .error (.unassignedOpcode 0x05) ∧
  decode 0x09412000 = .error (.unassignedOpcode 0x09)

/-- R91, R97: decoding the word of a well-formed instruction gives the instruction back, every operand at every value its
field admits. -/
def Obligations.DecodeEncodeRoundTrip : Prop :=
  ∀ i : Instr, i.wellFormed = true → decode (encode i) = .ok i

/-- R97, R105: a word that decodes is the word of what it decodes to, so no bit of a legal word is dropped. -/
def Obligations.LegalWordIsItsEncoding : Prop :=
  ∀ (w : Word) (i : Instr), decode w = .ok i → i.wellFormed = true ∧ encode i = w

/-- R96: a word is the command of a row exactly when `(w and mask) = match`, with the table's own numbers, and no word is the
command of two rows. -/
def Obligations.MatchAndMaskDecideTheRow : Prop :=
  ∀ w : Word,
    ((∃ rd ra rm, decode w = .ok (.modred rd ra rm)) ↔ w &&& 0xFF88F8FF = 0x01000000) ∧
    ((∃ rd ra rb rm, decode w = .ok (.modadd rd ra rb rm)) ↔ w &&& 0xFF8888FF = 0x02000000) ∧
    ((∃ rd ra rb rm, decode w = .ok (.modsub rd ra rb rm)) ↔ w &&& 0xFF8888FF = 0x03000000) ∧
    ((∃ rd ra rb rm, decode w = .ok (.modmul rd ra rb rm)) ↔ w &&& 0xFF8888FF = 0x04000000) ∧
    ((∃ rd ra rb rm, decode w = .ok (.powmod rd ra rb rm)) ↔ w &&& 0xFF8888FF = 0x08000000) ∧
    ((∃ ra rm, decode w = .ok (.witness ra rm)) ↔ w &&& 0xFFF8F8FF = 0x10000000) ∧
    ((∃ rm rounds, decode w = .ok (.isprime rm rounds)) ↔ w &&& 0xFFFFF800 = 0x11000000)

/-- R98: exactly 19008 of the `2^32` words are legal. -/
def Obligations.LegalWordCount : Prop :=
  Nat.card { w : Word // ∃ i, decode w = .ok i } = 19008

/-- R105: printing a legal word and assembling the text gives the word back. -/
def Obligations.PrintThenAssemble : Prop :=
  ∀ (w : Word) (i : Instr), decode w = .ok i → assemble (printWord w) = some w

/-! ## The step and the decoded command -/

/-- R44, R97: a `CMD` write that finds the engine idle runs the command its word decodes to. What the step adds around `exec`
is the event taken, the answer `ok`, and acceptance step 1 (`CMDREG <- w`, `DONE <- 0`). -/
def Obligations.StepRunsAcceptedCommand : Prop :=
  ∀ (s : State) (w : Word) (i : Instr) (rest : List Event),
    s.Idle → s.resetHeld = false → decode w = .ok i →
    s.schedule = .write .word 0x008 w :: rest →
    step s = exec i { s with cmdreg := w, done := false, reply := some writeOk, schedule := rest }

/-- R26, R37, R310: an engine step of a running command runs the command in `CMDREG`; with nothing scheduled the step is the
engine's (the model's choice, log 3). -/
def Obligations.StepRunsCommandInFlight : Prop :=
  ∀ (s : State) (i : Instr),
    s.Running → s.resetHeld = false → decode s.cmdreg = .ok i →
    (s.schedule = [] → step s = exec i s) ∧
    (∀ rest, s.schedule = .engine :: rest → step s = exec i { s with schedule := rest })

/-- R44 step 2, R98, R252: a word that is not a command, written to the idle engine's `CMD`, is answered `ok` and faults with
code 1; `CMDREG` holds it and `DONE` is cleared, all else is as R256 says. -/
def Obligations.IllegalWordFaults : Prop :=
  ∀ (s : State) (w : Word) (e : Illegal) (rest : List Event),
    s.Idle → s.resetHeld = false → decode w = .error e →
    s.schedule = .write .word 0x008 w :: rest →
    step s = .next { s with
      cmdreg := w, done := false, err := true, errcode := 1, busy := false, rwait := false,
      hidden := none, draw := none, reply := some writeOk, schedule := rest }

/-! ## Field arithmetic -/

/-- R122, R44, R45: `MODRED` on an idle engine with a non-zero modulus latches its operands and sets `BUSY`; its engine step
then writes `x[ra] mod x[rm]` to `x[rd]` and completes. Nothing else changes. -/
def Obligations.ModredResult : Prop :=
  ∀ (rd ra rm : Reg) (s : State), s.Idle → readReg s rm ≠ 0 →
    ∃ t, exec (.modred rd ra rm) s = .next t ∧
      t = { s with busy := true, hidden := some ⟨readReg s ra, 0, readReg s rm, .field⟩ } ∧
      exec (.modred rd ra rm) t = .next { s with
        regs := s.regs.set rd (readReg s ra % readReg s rm),
        busy := false, rwait := false, done := true, hidden := none, draw := none }

/-- R123, R121: `MODADD`, the exact sum reduced. -/
def Obligations.ModaddResult : Prop :=
  ∀ (rd ra rb rm : Reg) (s : State), s.Idle → readReg s rm ≠ 0 →
    ∃ t, exec (.modadd rd ra rb rm) s = .next t ∧
      t = { s with busy := true, hidden := some ⟨readReg s ra, readReg s rb, readReg s rm, .field⟩ } ∧
      exec (.modadd rd ra rb rm) t = .next { s with
        regs := s.regs.set rd ((readReg s ra + readReg s rb) % readReg s rm),
        busy := false, rwait := false, done := true, hidden := none, draw := none }

/-- R124: `MODSUB`, "the unique `r` in `[0, n)` with `r + b ≡ a (mod n)`". -/
def Obligations.ModsubResult : Prop :=
  ∀ (rd ra rb rm : Reg) (s : State), s.Idle → readReg s rm ≠ 0 →
    ∃ t r, exec (.modsub rd ra rb rm) s = .next t ∧
      t = { s with busy := true, hidden := some ⟨readReg s ra, readReg s rb, readReg s rm, .field⟩ } ∧
      exec (.modsub rd ra rb rm) t = .next { s with
        regs := s.regs.set rd r,
        busy := false, rwait := false, done := true, hidden := none, draw := none } ∧
      r < readReg s rm ∧
      (r + readReg s rb) % readReg s rm = readReg s ra % readReg s rm

/-- R125, R121: `MODMUL`, the exact product reduced. -/
def Obligations.ModmulResult : Prop :=
  ∀ (rd ra rb rm : Reg) (s : State), s.Idle → readReg s rm ≠ 0 →
    ∃ t, exec (.modmul rd ra rb rm) s = .next t ∧
      t = { s with busy := true, hidden := some ⟨readReg s ra, readReg s rb, readReg s rm, .field⟩ } ∧
      exec (.modmul rd ra rb rm) t = .next { s with
        regs := s.regs.set rd (readReg s ra * readReg s rb % readReg s rm),
        busy := false, rwait := false, done := true, hidden := none, draw := none }

/-- R128, R163, R253: the six commands with a modulus, met by an idle engine whose `rm` register holds 0, raise fault 2;
no register is written and, as R256 says, only the fault's own fields change. -/
def Obligations.ZeroModulusFaults : Prop :=
  ∀ (rd ra rb rm : Reg) (i : Instr) (s : State),
    i ∈ [Instr.modred rd ra rm, .modadd rd ra rb rm, .modsub rd ra rb rm, .modmul rd ra rb rm, .powmod rd ra rb rm,
      .witness ra rm] →
    s.Idle → readReg s rm = 0 →
    exec i s = .next { s with
      err := true, errcode := 2, busy := false, rwait := false, hidden := none, draw := none }

/-- R129, R44 step 4, R45, R80: a field command in flight computes from its latched operands alone, whatever the registers
hold when it completes, its destination and modulus registers included. -/
def Obligations.FieldCommandsUseLatchedOperands : Prop :=
  ∀ (rd ra rb rm : Reg) (a b n : Nat) (s : State), s.Running → s.hidden = some ⟨a, b, n, .field⟩ →
    exec (.modred rd ra rm) s = .next (completeReg rd (a % n) s) ∧
    exec (.modadd rd ra rb rm) s = .next (completeReg rd ((a + b) % n) s) ∧
    exec (.modsub rd ra rb rm) s =
      .next (completeReg rd (if a % n ≥ b % n then a % n - b % n else a % n + n - b % n) s) ∧
    exec (.modmul rd ra rb rm) s = .next (completeReg rd (a * b % n) s)

/-- R131: the laws that follow from the definitions, for every modulus of at least 1. -/
def Obligations.FieldArithmeticLaws : Prop :=
  ∀ a b c n : Nat, 1 ≤ n →
    modadd a b n = modadd b a n ∧
    modmul a b n = modmul b a n ∧
    modadd (modsub a b n) b n = modred a n ∧
    modsub a a n = 0 ∧
    modmul a 1 n = modred a n ∧
    modred (modred a n) n = modred a n ∧
    modadd (a % n) b n = modadd a b n ∧ modadd b (a % n) n = modadd b a n ∧
    modsub (a % n) b n = modsub a b n ∧ modsub b (a % n) n = modsub b a n ∧
    modmul (a % n) b n = modmul a b n ∧ modmul b (a % n) n = modmul b a n ∧
    modred (a % n) n = modred a n ∧
    modmul (modmul a b n) c n = modmul a (modmul b c n) n

/-! ## POWMOD -/

/-- R141, R142, R145: `POWMOD` on an idle engine with a non-zero modulus is accepted, and its engine step writes
`(x[ra] ^ x[rb]) mod x[rm]` to `x[rd]` and completes; modulus 1 and exponent 0 included. -/
def Obligations.PowmodResult : Prop :=
  ∀ (rd ra rb rm : Reg) (s : State), s.Idle → readReg s rm ≠ 0 →
    ∃ t, exec (.powmod rd ra rb rm) s = .next t ∧
      t = { s with
        busy := true,
        hidden := some ⟨readReg s ra, readReg s rb, readReg s rm,
          .pow ⟨1 % readReg s rm, readReg s ra % readReg s rm, readReg s rb⟩⟩ } ∧
      exec (.powmod rd ra rb rm) t = .next { s with
        regs := s.regs.set rd (readReg s ra ^ readReg s rb % readReg s rm),
        busy := false, rwait := false, done := true, hidden := none, draw := none }

/-- R145: before and after every pass `(v * p^d) mod n = (b0^e) mod n`; at the start it holds, and at `d = 0` the value is
`v`. -/
def Obligations.PowmodPassKeepsTheProduct : Prop :=
  (∀ b e n : Nat, (powStart b e n).v * (powStart b e n).p ^ (powStart b e n).d % n = b ^ e % n) ∧
  (∀ (n : Nat) (w : PowWork),
    (powPass n w).v * (powPass n w).p ^ (powPass n w).d % n = w.v * w.p ^ w.d % n) ∧
  (∀ (n : Nat) (w : PowWork), w.d = 0 → powFinish n w = w.v)

/-- R143: the loop runs exactly `bitlen(d)` times, and at most `W` times for an exponent of `W` bits. -/
def Obligations.PowmodRunsBitlenPasses : Prop :=
  ∀ (n : Nat) (w : PowWork),
    (powPasses n (bitlen w.d) w).d = 0 ∧
    (∀ k, k < bitlen w.d → (powPasses n k w).d ≠ 0) ∧
    (∀ W, w.d < 2 ^ W → bitlen w.d ≤ W)

/-! ## WITNESS and ISPRIME -/

/-- R162: `WITNESS` on an idle engine with `n >= 2` is accepted, and its engine step completes with `T` true exactly when,
for `n - 1 = u * 2^k` with `u` odd, the squarings of `a^u` meet a non-trivial square root of 1, or `a^(n-1)` is not 1 modulo
`n`. No register is written. -/
def Obligations.WitnessResult : Prop :=
  ∀ (ra rm : Reg) (s : State) (u k : Nat), s.Idle → 2 ≤ readReg s rm →
    u % 2 = 1 → readReg s rm - 1 = u * 2 ^ k →
    ∃ t b, exec (.witness ra rm) s = .next t ∧
      t = { s with
        busy := true,
        hidden := some ⟨readReg s ra, 0, readReg s rm, .witness (.halving (readReg s rm - 1) 0)⟩ } ∧
      exec (.witness ra rm) t = .next { s with
        t := b, busy := false, rwait := false, done := true, hidden := none, draw := none } ∧
      (b = true ↔
        (∃ i, i < k ∧ readReg s ra ^ (u * 2 ^ (i + 1)) % readReg s rm = 1 ∧
          readReg s ra ^ (u * 2 ^ i) % readReg s rm ≠ 1 ∧
          readReg s ra ^ (u * 2 ^ i) % readReg s rm ≠ readReg s rm - 1) ∨
        readReg s ra ^ (readReg s rm - 1) % readReg s rm ≠ 1)

/-- R163: a `WITNESS` written to the idle engine's `CMD` is refused with fault 2 when `n = 0` and with fault 3 when `n = 1`,
whatever comes after the write; for every `n >= 2` and every `a` it is accepted, and an engine step after it completes it with
the result of the literal algorithm. -/
def Obligations.WitnessOperandChecks : Prop :=
  ∀ (ra rm : Reg) (w : Word) (s : State) (rest : List Event), s.Idle → s.resetHeld = false →
    decode w = .ok (.witness ra rm) → s.schedule = .write .word 0x008 w :: rest →
    (readReg s rm = 0 → step s = .next { s with
      cmdreg := w, done := false, err := true, errcode := 2, busy := false, rwait := false, hidden := none,
      draw := none, schedule := rest, reply := some writeOk }) ∧
    (readReg s rm = 1 → step s = .next { s with
      cmdreg := w, done := false, err := true, errcode := 3, busy := false, rwait := false, hidden := none,
      draw := none, schedule := rest, reply := some writeOk }) ∧
    (∀ later, rest = .engine :: later → 2 ≤ readReg s rm →
      ∃ t, step s = .next t ∧ t.Running ∧ step t = .next { s with
        cmdreg := w, t := witness (readReg s ra) (readReg s rm), busy := false, rwait := false, done := true,
        hidden := none, draw := none, schedule := later, reply := some writeOk })

/-- R170, R171: `ISPRIME` on an idle engine is accepted whatever the number and the count of rounds, no operand check made; and
where an immediate decision applies, its engine step completes with that `T` and no draw. -/
def Obligations.IsprimeImmediateDecisions : Prop :=
  ∀ (rm : Reg) (rounds : Nat) (s : State), s.Idle →
    ∃ t, exec (.isprime rm rounds) s = .next t ∧
      t = { s with busy := true, hidden := some ⟨0, 0, readReg s rm, .isPrime 0 none⟩ } ∧
      ∀ b : Bool,
        (((readReg s rm < 2 ∨ readReg s rm % 2 = 0 ∧ readReg s rm ≠ 2) ∧ b = false) ∨
          ((readReg s rm = 2 ∨ readReg s rm = 3) ∧ b = true)) →
        exec (.isprime rm rounds) t = .next { s with
          t := b, busy := false, rwait := false, done := true, hidden := none, draw := none }

/-- R172: an `ISPRIME` with `rounds = 0` and an odd `n >= 5`, written to the idle engine's `CMD`, is accepted, and the engine's
next step completes it with `T = 1`, prime or not, no draw made. -/
def Obligations.IsprimeZeroRounds : Prop :=
  ∀ (rm : Reg) (w : Word) (s : State) (rest : List Event), s.Idle → s.resetHeld = false →
    decode w = .ok (.isprime rm 0) → s.schedule = .write .word 0x008 w :: .engine :: rest →
    5 ≤ readReg s rm → readReg s rm % 2 = 1 →
    ∃ t, step s = .next t ∧ t.Running ∧ t.draw = s.draw ∧ step t = .next { s with
      cmdreg := w, t := true, busy := false, rwait := false, done := true, hidden := none, draw := none,
      schedule := rest, reply := some writeOk }

/-- R166 event 1, R170: `ISPRIME` running with a number of its trial loop, no trial in progress and rounds left, requests a
draw from `[2, n - 2]` and is then waiting: `EngineHoldsWhenNotRunning` says that it holds there. -/
def Obligations.IsprimeRequestsDraw : Prop :=
  ∀ (rm : Reg) (rounds i a b n : Nat) (s : State), s.Running →
    s.hidden = some ⟨a, b, n, .isPrime i none⟩ → 5 ≤ n → n % 2 = 1 → i < rounds →
    exec (.isprime rm rounds) s = .next { s with
      rwait := true, draw := some ⟨2, n - 2⟩, hidden := some ⟨a, b, n, .isPrime (i + 1) none⟩ }

/-- R46, R166 event 1, R258, R270: an idle, a waiting or a faulted engine has no step of its own. An engine event or a pass in
those states changes nothing, and neither does a step with nothing scheduled (that such an event may stand in the schedule is
the model's choice, log 13; the step of an empty schedule, log 3). -/
def Obligations.EngineHoldsWhenNotRunning : Prop :=
  ∀ s : State, (s.Idle ∨ s.Waiting ∨ s.err = true) → s.resetHeld = false →
    (∀ e rest, e = .engine ∨ e = .pass → s.schedule = e :: rest → step s = .next { s with schedule := rest }) ∧
    (s.schedule = [] → step s = .next s)

/-- R170, R173: with trial `i` in progress, a composite verdict completes with `T = 0` at once; otherwise the next draw is
requested while trials are left, and after the last one the command completes with `T = 1`. -/
def Obligations.IsprimeEndsTrial : Prop :=
  ∀ (rm : Reg) (rounds i a b n val : Nat) (w : WitnessWork) (s : State), s.Running →
    s.hidden = some ⟨a, b, n, .isPrime i (some ⟨val, w⟩)⟩ → 5 ≤ n → n % 2 = 1 → WitnessFits val n w →
    exec (.isprime rm rounds) s =
      if witness val n = true then .next (completeFlag false s)
      else if i < rounds then .next { s with
        rwait := true, draw := some ⟨2, n - 2⟩, hidden := some ⟨a, b, n, .isPrime (i + 1) none⟩ }
      else .next (completeFlag true s)

/-- R166 events 2 and 3: an answer within the bounds ends the wait, and the trial starts with that witness. -/
def Obligations.AnswerInBoundsStartsTrial : Prop :=
  ∀ (s : State) (rest : List Event) (a b n i lo hi val : Nat), s.Waiting → s.resetHeld = false →
    s.draw = some ⟨lo, hi⟩ → s.hidden = some ⟨a, b, n, .isPrime i none⟩ →
    s.schedule = .answer val :: rest → lo ≤ val → val ≤ hi →
    step s = .next { s with
      rwait := false, draw := none, schedule := rest,
      hidden := some ⟨a, b, n, .isPrime i (some ⟨val, .halving (n - 1) 0⟩)⟩ }

/-- R167: an answer outside `[lo, hi]` faults the engine with code 5; `ISPRIME` is abandoned and `T` is not written. -/
def Obligations.AnswerOutOfBoundsFaults : Prop :=
  ∀ (s : State) (rest : List Event) (h : InFlight) (lo hi val : Nat), s.Waiting → s.resetHeld = false →
    s.draw = some ⟨lo, hi⟩ → s.hidden = some h →
    s.schedule = .answer val :: rest → (val < lo ∨ hi < val) →
    step s = .next { s with
      err := true, errcode := 5, busy := false, rwait := false, hidden := none, draw := none, schedule := rest }

/-- R174 (a), R162: for a prime modulus and a base it does not divide, `WITNESS` completes with `T = 0`: "true ⇒ n is
definitely composite for this witness". -/
def Obligations.WitnessNeverAccusesPrime : Prop :=
  ∀ (ra rm : Reg) (s : State), s.Idle → Nat.Prime (readReg s rm) → ¬ readReg s rm ∣ readReg s ra →
    ∃ t, exec (.witness ra rm) s = .next t ∧ exec (.witness ra rm) t = .next (completeFlag false s)

/-- R174 (a): "there are no false negatives for primes". In a state of the invariant with an `ISPRIME` in flight on a prime,
whatever step completes it leaves `T = 1`: for every schedule and every answer of the random source. -/
def Obligations.IsprimeNeverRejectsPrime : Prop :=
  ∀ (s t : State) (h : InFlight) (rm : Reg) (rounds : Nat),
    s.Inv → s.hidden = some h → decode s.cmdreg = .ok (.isprime rm rounds) → Nat.Prime h.n →
    step s = .next t → t.done = true → t.t = true

/-- R176, R308: `ISPRIME` in flight, given the engine's steps and an answer to each of at most `rounds` requests, has
completed or faulted by the end of them. The schedule is the longest the command can need: where it ends before, the answers
and engine events left over change nothing, which is the model's inference (log 8 and log 13). -/
def Obligations.IsprimeEndsAfterItsDraws : Prop :=
  ∀ (s : State) (rm : Reg) (rounds : Nat) (vals : List Nat),
    s.Inv → s.Running → s.resetHeld = false → decode s.cmdreg = .ok (.isprime rm rounds) →
    vals.length = rounds →
    s.schedule = .engine :: vals.flatMap (fun v => [.answer v, .engine]) →
    ∃ t, steps (2 * rounds + 1) s = .next t ∧ t.busy = false

/-! ## Frames and whole-machine rules -/

/-- R22, R28, R45, R160, R256: what no command changes in any of its moves, in any state: the instance, `IE`, `CMDREG`, the
model's own fields, every register but its destination, and `T` unless it is a test. -/
def Obligations.CommandFrame : Prop :=
  ∀ (i : Instr) (s t : State), exec i s = .next t →
    t.limbs = s.limbs ∧ t.ie = s.ie ∧ t.cmdreg = s.cmdreg ∧ t.resetHeld = s.resetHeld ∧
    t.schedule = s.schedule ∧ t.reply = s.reply ∧
    (∀ r, instrDest i ≠ some r → readReg t r = readReg s r) ∧
    (instrTests i = false → t.t = s.t)

/-- R22: every writer of an operand register. A step that changes register `r` is a reset, a window write of `r` with the
engine neither busy nor faulted, or the engine step of a running command whose `rd` is `r`. -/
def Obligations.RegisterWriters : Prop :=
  ∀ (s t : State) (r : Reg), step s = .next t → readReg t r ≠ readReg s r →
    (∃ rest, s.schedule = .resetAssert :: rest) ∨
    (∃ v rest, s.schedule = .write .word 0x000 v :: rest ∧ v.getLsbD 1 = true) ∨
    (∃ j v rest, j < s.limbs ∧ s.schedule = .write .word (limbAddr s.limbs r j) v :: rest ∧
      s.busy = false ∧ s.err = false) ∨
    (∃ i, (s.schedule = [] ∨ ∃ rest, s.schedule = .engine :: rest) ∧ s.Running ∧
      decode s.cmdreg = .ok i ∧ instrDest i = some r ∧ t.done = true)

/-- R28 (row `T`), R305: `T` changes only by a reset or by the completion of a `WITNESS` or `ISPRIME` in flight. -/
def Obligations.ResultFlagWriters : Prop :=
  ∀ s t : State, step s = .next t → t.t ≠ s.t →
    (∃ rest, s.schedule = .resetAssert :: rest) ∨
    (∃ v rest, s.schedule = .write .word 0x000 v :: rest ∧ v.getLsbD 1 = true) ∨
    (∃ i, s.Running ∧ decode s.cmdreg = .ok i ∧ instrTests i = true ∧ t.done = true)

/-- R258, R260: from the faulted state a step keeps `ERR` and the code of the first fault, unless it is a hardware or a soft
reset. -/
def Obligations.FaultKeptUntilReset : Prop :=
  ∀ s t : State, s.err = true → step s = .next t →
    (t.err = true ∧ t.errcode = s.errcode) ∨
    (∃ rest, s.schedule = .resetAssert :: rest) ∨
    (∃ v rest, s.schedule = .write .word 0x000 v :: rest ∧ v.getLsbD 1 = true)

/-- R23, R43: what a command starts from is decided by the registers its own fields name: two idle engines that agree on them
latch the same hidden state or fault with the same code. -/
def Obligations.OnlyNamedRegistersMatter : Prop :=
  ∀ (i : Instr) (s s' : State), s.Idle → s'.Idle →
    (∀ r, r ∈ instrSources i → readReg s r = readReg s' r) →
    ∃ t t', exec i s = .next t ∧ exec i s' = .next t' ∧
      t.hidden = t'.hidden ∧ t.busy = t'.busy ∧ t.err = t'.err ∧ (t.err = true → t.errcode = t'.errcode)

/-- R42, R310: a pass (the model's event for one loop pass, log 5) changes hidden state only, and the command's next visible
step is the same with it or without it. -/
def Obligations.PassesAreInvisible : Prop :=
  ∀ (s : State) (i : Instr) (rest : List Event), s.Inv → s.Running → decode s.cmdreg = .ok i →
    s.schedule = .pass :: rest →
    ∃ t, step s = .next t ∧ t = { s with hidden := t.hidden, schedule := rest } ∧ t.Running ∧
      exec i t = exec i { s with schedule := rest }

/-- R34: the flag invariants hold after reset, and every step keeps them: each of the seven, whatever the other state. -/
def Obligations.StepKeepsFlagInvariants : Prop :=
  (∀ L, (State.resetOf L).FlagInv) ∧ ∀ s t : State, s.FlagInv → step s = .next t → t.FlagInv

/-- R9, R34, R37, R42, R43, R46, R121, R290: every step keeps the invariant of the machine; in particular every operand
register holds a value below `2^W`, whatever is computed. -/
def Obligations.StepKeepsMachineInvariant : Prop :=
  ∀ s t : State, s.Inv → step s = .next t → t.Inv

/-- R47, R38: the reset state of every instance that exists meets the invariant, and so does `State.reset` (the instance of
log 1, the model's choice). -/
def Obligations.ResetMeetsMachineInvariant : Prop :=
  (∀ L, 1 ≤ L → L ≤ 65535 → (State.resetOf L).Inv) ∧ State.reset.Inv

/-- R250, R308: in every state of the invariant the step answers a next state: the model's own stops (log 11) are not
reached. -/
def Obligations.StepNeverStops : Prop :=
  ∀ s : State, s.Inv → ∃ t, step s = .next t

/-! ## Host port -/

/-- R61: a read changes no engine state, and answers with what is mapped: the four registers, limb `j` of `ri`,
and for every other width, a misaligned or an unmapped address `buserr` with datum 0. -/
def Obligations.ReadAnswers : Prop :=
  ∀ (s : State) (width : AccessWidth) (addr : Nat) (rest : List Event), s.resetHeld = false →
    s.schedule = .read width addr :: rest →
    ∃ r, step s = .next { s with schedule := rest, reply := some r } ∧
      (width = .word → addr = 0x000 → r = ⟨.ok, some (BitVec.ofNat 32 s.ie.toNat)⟩) ∧
      (width = .word → addr = 0x004 → r = ⟨.ok, some (statusWord s)⟩) ∧
      (width = .word → addr = 0x008 → r = ⟨.ok, some s.cmdreg⟩) ∧
      (width = .word → addr = 0x00C → r = ⟨.ok, some (capsWord s)⟩) ∧
      (∀ (i : Reg) (j : Nat), width = .word → j < s.limbs → addr = 0x100 + 4 * (s.limbs * i + j) →
        r = ⟨.ok, some (BitVec.ofNat 32 (readReg s i / 2 ^ (32 * j)))⟩) ∧
      ((width ≠ .word ∨ addr % 4 ≠ 0 ∨ (0x010 ≤ addr ∧ addr < 0x100) ∨ 0x100 + 32 * s.limbs ≤ addr) →
        r = ⟨.buserr, some 0⟩)

/-- R35, R36: the value of the `STATUS` word: `BUSY`, `DONE`, `T`, `ERR`, `RWAIT` in bits 0 to 4, `ERRCODE` in bits 11:8, all
other bits 0. -/
def Obligations.StatusWordValue : Prop :=
  ∀ s : State, (statusWord s).toNat =
    s.busy.toNat + 2 * s.done.toNat + 4 * s.t.toNat + 8 * s.err.toNat + 16 * s.rwait.toNat + 256 * s.errcode.toNat

/-- R38: the value of the `CAPS` word of an instance that exists: `L`, `NREG = 8` in bits 19:16, `VERSION = 1` in bits
31:24. -/
def Obligations.CapsWordValue : Prop :=
  ∀ s : State, s.limbs ≤ 65535 → (capsWord s).toNat = s.limbs + 8 * 2 ^ 16 + 1 * 2 ^ 24

/-- R66, R69: an admitted window write replaces one limb by the datum and leaves the other limbs of the register and all
other state unchanged. -/
def Obligations.WindowWriteStoresLimb : Prop :=
  ∀ (s : State) (i : Reg) (j : Nat) (d : Word) (rest : List Event), s.Idle → s.resetHeld = false → j < s.limbs →
    s.schedule = .write .word (0x100 + 4 * (s.limbs * i + j)) d :: rest →
    ∃ t, step s = .next t ∧
      t = { s with regs := t.regs, schedule := rest, reply := some writeOk } ∧
      readReg t i / 2 ^ (32 * j) % 2 ^ 32 = d.toNat ∧
      (∀ k, k ≠ j → readReg t i / 2 ^ (32 * k) % 2 ^ 32 = readReg s i / 2 ^ (32 * k) % 2 ^ 32) ∧
      (∀ r, r ≠ i → readReg t r = readReg s r)

/-- R69: the integer a register holds is the sum of `limb_j * 2^(32*j)`, limb 0 the least significant. -/
def Obligations.RegisterIsSumOfLimbs : Prop :=
  ∀ (s : State) (i : Reg), readReg s i < 2 ^ (32 * s.limbs) →
    limbsValue ((List.range s.limbs).map (readLimb s i)) = readReg s i

/-- R82, R72: the `L` writes of `LDR ri, value` on an idle engine put `value` into `x[i]` and change nothing else. -/
def Obligations.LdrLoadsTheValue : Prop :=
  ∀ (s : State) (i : Reg) (v : Nat) (evs rest : List Event), s.Idle → s.resetHeld = false → 1 ≤ s.limbs →
    readReg s i < 2 ^ (32 * s.limbs) → scriptLdr s.limbs i v = some evs → s.schedule = evs ++ rest →
    steps s.limbs s = .next { s with regs := s.regs.set i v, schedule := rest, reply := some writeOk }

/-- R67, R255: while `BUSY = 1` a write to `CMD` or to any limb of the register window is dropped, answers `buserr` and faults
the engine with code 4; the command in flight and an outstanding draw are gone, `CMDREG`, the registers and `T` are as they
were. -/
def Obligations.WriteWhileBusyFaults : Prop :=
  ∀ (s : State) (addr : Nat) (d : Word) (rest : List Event), s.busy = true → s.err = false → s.resetHeld = false →
    (addr = 0x008 ∨ ∃ (i : Reg) (j : Nat), j < s.limbs ∧ addr = 0x100 + 4 * (s.limbs * i + j)) →
    s.schedule = .write .word addr d :: rest →
    step s = .next { s with
      err := true, errcode := 4, busy := false, rwait := false, hidden := none, draw := none,
      schedule := rest, reply := some writeBuserr }

/-- R68, R258: while `ERR = 1` a write to `CMD` or to the register window is dropped and answers `buserr`; nothing changes. -/
def Obligations.WriteWhileFaultedDropped : Prop :=
  ∀ (s : State) (addr : Nat) (d : Word) (rest : List Event), s.err = true → s.resetHeld = false →
    (addr = 0x008 ∨ ∃ (i : Reg) (j : Nat), j < s.limbs ∧ addr = 0x100 + 4 * (s.limbs * i + j)) →
    s.schedule = .write .word addr d :: rest →
    step s = .next { s with schedule := rest, reply := some writeBuserr }

/-- R62, R63, R64, R70, R71: a write of another width, to a misaligned or unmapped address, or to `STATUS` or `CAPS` answers
`buserr` and changes nothing, in every engine state. -/
def Obligations.BadWriteChangesNothing : Prop :=
  ∀ (s : State) (width : AccessWidth) (addr : Nat) (d : Word) (rest : List Event), s.resetHeld = false →
    (width ≠ .word ∨ addr % 4 ≠ 0 ∨ addr = 0x004 ∨ addr = 0x00C ∨ (0x010 ≤ addr ∧ addr < 0x100) ∨
      0x100 + 32 * s.limbs ≤ addr) →
    s.schedule = .write width addr d :: rest →
    step s = .next { s with schedule := rest, reply := some writeBuserr }

/-- R31, R33: a `CTRL` write with bit 1 clear, in any engine state, answers `ok`, sets `IE` to bit 0 and clears `DONE` if bit
2 is set; nothing else changes. -/
def Obligations.ControlWriteSetsEnable : Prop :=
  ∀ (s : State) (v : Word) (rest : List Event), s.resetHeld = false → v.getLsbD 1 = false →
    s.schedule = .write .word 0x000 v :: rest →
    step s = .next { s with
      ie := v.getLsbD 0, done := (s.done && !v.getLsbD 2), schedule := rest, reply := some writeOk }

/-- R31, R32, R47, R291: a `CTRL` write with bit 1 set, in any engine state, puts every piece of engine state into its reset
value and answers `ok`; the instance and the events to come stay. -/
def Obligations.SoftResetResetsEverything : Prop :=
  ∀ (s : State) (v : Word) (rest : List Event), s.resetHeld = false → v.getLsbD 1 = true →
    s.schedule = .write .word 0x000 v :: rest →
    step s = .next { State.resetOf s.limbs with schedule := rest, reply := some writeOk }

/-- R290, R292: hardware reset, in any state, puts every piece of engine state into its reset value; while it is held a
host transaction of any width and address is not answered, an engine step, a pass or an answer does nothing at all, and no
engine state changes. That the input is a level between two events, and that `reply` shows an unanswered transaction as `none`,
is the model's choice (log 10). -/
def Obligations.HardwareResetHolds : Prop :=
  ∀ (s : State) (rest : List Event),
    (s.schedule = .resetAssert :: rest →
      step s = .next { State.resetOf s.limbs with resetHeld := true, schedule := rest, reply := s.reply }) ∧
    (∀ width addr v, s.resetHeld = true →
      s.schedule = .read width addr :: rest ∨ s.schedule = .write width addr v :: rest →
      step s = .next { s with schedule := rest, reply := none }) ∧
    (∀ val, s.resetHeld = true →
      s.schedule = .engine :: rest ∨ s.schedule = .pass :: rest ∨ s.schedule = .answer val :: rest →
      step s = .next { s with schedule := rest }) ∧
    (s.resetHeld = true → s.schedule = .resetRelease :: rest →
      step s = .next { s with resetHeld := false, schedule := rest })

/-- R292: with no request outstanding an answer of the random source changes nothing. R292 says it after a reset; for the other
states without a request it is the model's inference (log 8). -/
def Obligations.LateAnswerIgnored : Prop :=
  ∀ (s : State) (val : Nat) (rest : List Event), s.rwait = false → s.schedule = .answer val :: rest →
    step s = .next { s with schedule := rest }

/-- R262, R263: `irq = IE and (DONE or ERR)`, read off the words the host can read. -/
def Obligations.InterruptOutput : Prop :=
  ∀ s : State, irq s = true ↔
    ((ctrlWord s).getLsbD 0 = true ∧ ((statusWord s).getLsbD 1 = true ∨ (statusWord s).getLsbD 3 = true))

/-- R44, R90: the fixed entry by which the host places a command: the next step of `withFetchWord` runs exactly the command
the table's bits decode to (the placement is the model's choice, log 4). -/
def Obligations.FetchWordRunsNext : Prop :=
  ∀ (s : State) (w : Nat) (i : Instr), decodeTableWord 32 w = some i →
    step (s.withFetchWord 32 w) = exec i { idled s with
      cmdreg := BitVec.ofNat 32 w, done := false, reply := some writeOk }

/-! ## Host software over the engine's arithmetic -/

/-- R224 to R227: a text whose codes fit in a byte and whose last is not the mask constant is decoded from its encoding; a
text encodes exactly when all its codes fit, and fails with `EncodingOverflow` otherwise. -/
def Obligations.TextCodecRoundTrip : Prop :=
  ∀ cs : List Nat,
    ((∀ c, c ∈ cs → c < 256) →
      ∃ m, encodeText cs = .ok m ∧ (cs.getLast? ≠ some 0xAA → decodeText m = cs)) ∧
    (∀ c, c ∈ cs → 256 ≤ c → encodeText cs = .error .encodingOverflow)

/-- R220, R221, R223: decryption undoes encryption, for a prime modulus, a generator it does not divide, every private
exponent up to `p - 1` and every draw `k`; a message not below the modulus is refused (R222). -/
def Obligations.DecryptUndoesEncrypt : Prop :=
  ∀ p r a k m : Nat, Nat.Prime p → ¬ p ∣ r → a ≤ p - 1 →
    (m < p → ∃ c, encryptValue m (keysOf p r a).2 k = .ok c ∧ decryptValue c (keysOf p r a).1 = .ok m) ∧
    (p ≤ m → encryptValue m (keysOf p r a).2 k = .error .messageTooLarge)

/-- R82, R94, R106: what the host's lines give, with no other agent's step between (`between`, the model's own field, log 24):
`STR` the register's whole value, the engine unchanged but for the last answer; `LDR` of a value of `2^W` or more and `CMD` of a
command without an encoding a refusal before any transaction; and, whatever happens between, `WAIT` the last value read, the
`STATUS` word of the engine it leaves, whose `BUSY` is clear. -/
def Obligations.HostLinesGiveTheirValues : Prop :=
  ∀ (i : Reg) (h : Session),
    (h.between = [] → h.engine.resetHeld = false → readReg h.engine i < 2 ^ (32 * h.engine.limbs) →
      ∃ r, (hostStr i).run.run h = (.ok (readReg h.engine i), { h with engine := { h.engine with reply := r } })) ∧
    (∀ v, 2 ^ (32 * h.engine.limbs) ≤ v → (hostLdr i v).run.run h = (.error .noEncoding, h)) ∧
    (∀ c, c.wellFormed = false → (hostCmd c).run.run h = (.error .noEncoding, h)) ∧
    (∀ w h', hostWait.run.run h = (.ok w, h') →
      w = statusWord h'.engine ∧ h'.engine.busy = false ∧ h'.engine.reply = some ⟨.ok, some w⟩)
end

