-- ==== Sys2Proof/Laws/State.lean ====
section
/-! SUPPORT. For every update of State, one lemma per field, true by rfl: later proofs rewrite with these and unfold no record
update. -/

namespace Sys2Proof.Machine

section
variable (s : State)

@[simp] theorem writeReg_limbs (r : Reg) (v : Nat) : (writeReg r v s).limbs = s.limbs := rfl
@[simp] theorem writeReg_regs (r : Reg) (v : Nat) : (writeReg r v s).regs = s.regs.set r v := rfl
@[simp] theorem writeReg_ie (r : Reg) (v : Nat) : (writeReg r v s).ie = s.ie := rfl
@[simp] theorem writeReg_busy (r : Reg) (v : Nat) : (writeReg r v s).busy = s.busy := rfl
@[simp] theorem writeReg_done (r : Reg) (v : Nat) : (writeReg r v s).done = s.done := rfl
@[simp] theorem writeReg_t (r : Reg) (v : Nat) : (writeReg r v s).t = s.t := rfl
@[simp] theorem writeReg_err (r : Reg) (v : Nat) : (writeReg r v s).err = s.err := rfl
@[simp] theorem writeReg_rwait (r : Reg) (v : Nat) : (writeReg r v s).rwait = s.rwait := rfl
@[simp] theorem writeReg_errcode (r : Reg) (v : Nat) : (writeReg r v s).errcode = s.errcode := rfl
@[simp] theorem writeReg_cmdreg (r : Reg) (v : Nat) : (writeReg r v s).cmdreg = s.cmdreg := rfl
@[simp] theorem writeReg_hidden (r : Reg) (v : Nat) : (writeReg r v s).hidden = s.hidden := rfl
@[simp] theorem writeReg_draw (r : Reg) (v : Nat) : (writeReg r v s).draw = s.draw := rfl
@[simp] theorem writeReg_resetHeld (r : Reg) (v : Nat) : (writeReg r v s).resetHeld = s.resetHeld := rfl
@[simp] theorem writeReg_schedule (r : Reg) (v : Nat) : (writeReg r v s).schedule = s.schedule := rfl
@[simp] theorem writeReg_reply (r : Reg) (v : Nat) : (writeReg r v s).reply = s.reply := rfl

@[simp] theorem raiseFault_limbs (c : ErrCode) : (raiseFault c s).limbs = s.limbs := rfl
@[simp] theorem raiseFault_regs (c : ErrCode) : (raiseFault c s).regs = s.regs := rfl
@[simp] theorem raiseFault_ie (c : ErrCode) : (raiseFault c s).ie = s.ie := rfl
@[simp] theorem raiseFault_busy (c : ErrCode) : (raiseFault c s).busy = false := rfl
@[simp] theorem raiseFault_done (c : ErrCode) : (raiseFault c s).done = s.done := rfl
@[simp] theorem raiseFault_t (c : ErrCode) : (raiseFault c s).t = s.t := rfl
@[simp] theorem raiseFault_err (c : ErrCode) : (raiseFault c s).err = true := rfl
@[simp] theorem raiseFault_rwait (c : ErrCode) : (raiseFault c s).rwait = false := rfl
@[simp] theorem raiseFault_errcode (c : ErrCode) : (raiseFault c s).errcode = errNumber c := rfl
@[simp] theorem raiseFault_cmdreg (c : ErrCode) : (raiseFault c s).cmdreg = s.cmdreg := rfl
@[simp] theorem raiseFault_hidden (c : ErrCode) : (raiseFault c s).hidden = none := rfl
@[simp] theorem raiseFault_draw (c : ErrCode) : (raiseFault c s).draw = none := rfl
@[simp] theorem raiseFault_resetHeld (c : ErrCode) : (raiseFault c s).resetHeld = s.resetHeld := rfl
@[simp] theorem raiseFault_schedule (c : ErrCode) : (raiseFault c s).schedule = s.schedule := rfl
@[simp] theorem raiseFault_reply (c : ErrCode) : (raiseFault c s).reply = s.reply := rfl

@[simp] theorem resetEngine_limbs : (resetEngine s).limbs = s.limbs := rfl
@[simp] theorem resetEngine_regs : (resetEngine s).regs = Vector.replicate Config.nreg 0 := rfl
@[simp] theorem resetEngine_ie : (resetEngine s).ie = false := rfl
@[simp] theorem resetEngine_busy : (resetEngine s).busy = false := rfl
@[simp] theorem resetEngine_done : (resetEngine s).done = false := rfl
@[simp] theorem resetEngine_t : (resetEngine s).t = false := rfl
@[simp] theorem resetEngine_err : (resetEngine s).err = false := rfl
@[simp] theorem resetEngine_rwait : (resetEngine s).rwait = false := rfl
@[simp] theorem resetEngine_errcode : (resetEngine s).errcode = 0 := rfl
@[simp] theorem resetEngine_cmdreg : (resetEngine s).cmdreg = 0 := rfl
@[simp] theorem resetEngine_hidden : (resetEngine s).hidden = none := rfl
@[simp] theorem resetEngine_draw : (resetEngine s).draw = none := rfl
@[simp] theorem resetEngine_resetHeld : (resetEngine s).resetHeld = s.resetHeld := rfl
@[simp] theorem resetEngine_schedule : (resetEngine s).schedule = s.schedule := rfl
@[simp] theorem resetEngine_reply : (resetEngine s).reply = s.reply := rfl

@[simp] theorem latchCommand_limbs (w : Word) : (latchCommand w s).limbs = s.limbs := rfl
@[simp] theorem latchCommand_regs (w : Word) : (latchCommand w s).regs = s.regs := rfl
@[simp] theorem latchCommand_ie (w : Word) : (latchCommand w s).ie = s.ie := rfl
@[simp] theorem latchCommand_busy (w : Word) : (latchCommand w s).busy = s.busy := rfl
@[simp] theorem latchCommand_done (w : Word) : (latchCommand w s).done = false := rfl
@[simp] theorem latchCommand_t (w : Word) : (latchCommand w s).t = s.t := rfl
@[simp] theorem latchCommand_err (w : Word) : (latchCommand w s).err = s.err := rfl
@[simp] theorem latchCommand_rwait (w : Word) : (latchCommand w s).rwait = s.rwait := rfl
@[simp] theorem latchCommand_errcode (w : Word) : (latchCommand w s).errcode = s.errcode := rfl
@[simp] theorem latchCommand_cmdreg (w : Word) : (latchCommand w s).cmdreg = w := rfl
@[simp] theorem latchCommand_hidden (w : Word) : (latchCommand w s).hidden = s.hidden := rfl
@[simp] theorem latchCommand_draw (w : Word) : (latchCommand w s).draw = s.draw := rfl
@[simp] theorem latchCommand_resetHeld (w : Word) : (latchCommand w s).resetHeld = s.resetHeld := rfl
@[simp] theorem latchCommand_schedule (w : Word) : (latchCommand w s).schedule = s.schedule := rfl
@[simp] theorem latchCommand_reply (w : Word) : (latchCommand w s).reply = s.reply := rfl

@[simp] theorem finish_limbs : (finish s).limbs = s.limbs := rfl
@[simp] theorem finish_regs : (finish s).regs = s.regs := rfl
@[simp] theorem finish_ie : (finish s).ie = s.ie := rfl
@[simp] theorem finish_busy : (finish s).busy = false := rfl
@[simp] theorem finish_done : (finish s).done = true := rfl
@[simp] theorem finish_t : (finish s).t = s.t := rfl
@[simp] theorem finish_err : (finish s).err = s.err := rfl
@[simp] theorem finish_rwait : (finish s).rwait = false := rfl
@[simp] theorem finish_errcode : (finish s).errcode = s.errcode := rfl
@[simp] theorem finish_cmdreg : (finish s).cmdreg = s.cmdreg := rfl
@[simp] theorem finish_hidden : (finish s).hidden = none := rfl
@[simp] theorem finish_draw : (finish s).draw = none := rfl
@[simp] theorem finish_resetHeld : (finish s).resetHeld = s.resetHeld := rfl
@[simp] theorem finish_schedule : (finish s).schedule = s.schedule := rfl
@[simp] theorem finish_reply : (finish s).reply = s.reply := rfl

@[simp] theorem completeReg_limbs (rd : Reg) (v : Nat) : (completeReg rd v s).limbs = s.limbs := rfl
@[simp] theorem completeReg_regs (rd : Reg) (v : Nat) : (completeReg rd v s).regs = s.regs.set rd v := rfl
@[simp] theorem completeReg_ie (rd : Reg) (v : Nat) : (completeReg rd v s).ie = s.ie := rfl
@[simp] theorem completeReg_busy (rd : Reg) (v : Nat) : (completeReg rd v s).busy = false := rfl
@[simp] theorem completeReg_done (rd : Reg) (v : Nat) : (completeReg rd v s).done = true := rfl
@[simp] theorem completeReg_t (rd : Reg) (v : Nat) : (completeReg rd v s).t = s.t := rfl
@[simp] theorem completeReg_err (rd : Reg) (v : Nat) : (completeReg rd v s).err = s.err := rfl
@[simp] theorem completeReg_rwait (rd : Reg) (v : Nat) : (completeReg rd v s).rwait = false := rfl
@[simp] theorem completeReg_errcode (rd : Reg) (v : Nat) : (completeReg rd v s).errcode = s.errcode := rfl
@[simp] theorem completeReg_cmdreg (rd : Reg) (v : Nat) : (completeReg rd v s).cmdreg = s.cmdreg := rfl
@[simp] theorem completeReg_hidden (rd : Reg) (v : Nat) : (completeReg rd v s).hidden = none := rfl
@[simp] theorem completeReg_draw (rd : Reg) (v : Nat) : (completeReg rd v s).draw = none := rfl
@[simp] theorem completeReg_resetHeld (rd : Reg) (v : Nat) : (completeReg rd v s).resetHeld = s.resetHeld := rfl
@[simp] theorem completeReg_schedule (rd : Reg) (v : Nat) : (completeReg rd v s).schedule = s.schedule := rfl
@[simp] theorem completeReg_reply (rd : Reg) (v : Nat) : (completeReg rd v s).reply = s.reply := rfl

@[simp] theorem completeFlag_limbs (b : Bool) : (completeFlag b s).limbs = s.limbs := rfl
@[simp] theorem completeFlag_regs (b : Bool) : (completeFlag b s).regs = s.regs := rfl
@[simp] theorem completeFlag_ie (b : Bool) : (completeFlag b s).ie = s.ie := rfl
@[simp] theorem completeFlag_busy (b : Bool) : (completeFlag b s).busy = false := rfl
@[simp] theorem completeFlag_done (b : Bool) : (completeFlag b s).done = true := rfl
@[simp] theorem completeFlag_t (b : Bool) : (completeFlag b s).t = b := rfl
@[simp] theorem completeFlag_err (b : Bool) : (completeFlag b s).err = s.err := rfl
@[simp] theorem completeFlag_rwait (b : Bool) : (completeFlag b s).rwait = false := rfl
@[simp] theorem completeFlag_errcode (b : Bool) : (completeFlag b s).errcode = s.errcode := rfl
@[simp] theorem completeFlag_cmdreg (b : Bool) : (completeFlag b s).cmdreg = s.cmdreg := rfl
@[simp] theorem completeFlag_hidden (b : Bool) : (completeFlag b s).hidden = none := rfl
@[simp] theorem completeFlag_draw (b : Bool) : (completeFlag b s).draw = none := rfl
@[simp] theorem completeFlag_resetHeld (b : Bool) : (completeFlag b s).resetHeld = s.resetHeld := rfl
@[simp] theorem completeFlag_schedule (b : Bool) : (completeFlag b s).schedule = s.schedule := rfl
@[simp] theorem completeFlag_reply (b : Bool) : (completeFlag b s).reply = s.reply := rfl

@[simp] theorem requestDraw_limbs (b : Bounds) (h : InFlight) : (requestDraw b h s).limbs = s.limbs := rfl
@[simp] theorem requestDraw_regs (b : Bounds) (h : InFlight) : (requestDraw b h s).regs = s.regs := rfl
@[simp] theorem requestDraw_ie (b : Bounds) (h : InFlight) : (requestDraw b h s).ie = s.ie := rfl
@[simp] theorem requestDraw_busy (b : Bounds) (h : InFlight) : (requestDraw b h s).busy = s.busy := rfl
@[simp] theorem requestDraw_done (b : Bounds) (h : InFlight) : (requestDraw b h s).done = s.done := rfl
@[simp] theorem requestDraw_t (b : Bounds) (h : InFlight) : (requestDraw b h s).t = s.t := rfl
@[simp] theorem requestDraw_err (b : Bounds) (h : InFlight) : (requestDraw b h s).err = s.err := rfl
@[simp] theorem requestDraw_rwait (b : Bounds) (h : InFlight) : (requestDraw b h s).rwait = true := rfl
@[simp] theorem requestDraw_errcode (b : Bounds) (h : InFlight) : (requestDraw b h s).errcode = s.errcode := rfl
@[simp] theorem requestDraw_cmdreg (b : Bounds) (h : InFlight) : (requestDraw b h s).cmdreg = s.cmdreg := rfl
@[simp] theorem requestDraw_hidden (b : Bounds) (h : InFlight) : (requestDraw b h s).hidden = some h := rfl
@[simp] theorem requestDraw_draw (b : Bounds) (h : InFlight) : (requestDraw b h s).draw = some b := rfl
@[simp] theorem requestDraw_resetHeld (b : Bounds) (h : InFlight) : (requestDraw b h s).resetHeld = s.resetHeld := rfl
@[simp] theorem requestDraw_schedule (b : Bounds) (h : InFlight) : (requestDraw b h s).schedule = s.schedule := rfl
@[simp] theorem requestDraw_reply (b : Bounds) (h : InFlight) : (requestDraw b h s).reply = s.reply := rfl

@[simp] theorem receiveDraw_limbs (h : InFlight) : (receiveDraw h s).limbs = s.limbs := rfl
@[simp] theorem receiveDraw_regs (h : InFlight) : (receiveDraw h s).regs = s.regs := rfl
@[simp] theorem receiveDraw_ie (h : InFlight) : (receiveDraw h s).ie = s.ie := rfl
@[simp] theorem receiveDraw_busy (h : InFlight) : (receiveDraw h s).busy = s.busy := rfl
@[simp] theorem receiveDraw_done (h : InFlight) : (receiveDraw h s).done = s.done := rfl
@[simp] theorem receiveDraw_t (h : InFlight) : (receiveDraw h s).t = s.t := rfl
@[simp] theorem receiveDraw_err (h : InFlight) : (receiveDraw h s).err = s.err := rfl
@[simp] theorem receiveDraw_rwait (h : InFlight) : (receiveDraw h s).rwait = false := rfl
@[simp] theorem receiveDraw_errcode (h : InFlight) : (receiveDraw h s).errcode = s.errcode := rfl
@[simp] theorem receiveDraw_cmdreg (h : InFlight) : (receiveDraw h s).cmdreg = s.cmdreg := rfl
@[simp] theorem receiveDraw_hidden (h : InFlight) : (receiveDraw h s).hidden = some h := rfl
@[simp] theorem receiveDraw_draw (h : InFlight) : (receiveDraw h s).draw = none := rfl
@[simp] theorem receiveDraw_resetHeld (h : InFlight) : (receiveDraw h s).resetHeld = s.resetHeld := rfl
@[simp] theorem receiveDraw_schedule (h : InFlight) : (receiveDraw h s).schedule = s.schedule := rfl
@[simp] theorem receiveDraw_reply (h : InFlight) : (receiveDraw h s).reply = s.reply := rfl

@[simp] theorem withReply_limbs (r : Reply) : (withReply r s).limbs = s.limbs := rfl
@[simp] theorem withReply_regs (r : Reply) : (withReply r s).regs = s.regs := rfl
@[simp] theorem withReply_ie (r : Reply) : (withReply r s).ie = s.ie := rfl
@[simp] theorem withReply_busy (r : Reply) : (withReply r s).busy = s.busy := rfl
@[simp] theorem withReply_done (r : Reply) : (withReply r s).done = s.done := rfl
@[simp] theorem withReply_t (r : Reply) : (withReply r s).t = s.t := rfl
@[simp] theorem withReply_err (r : Reply) : (withReply r s).err = s.err := rfl
@[simp] theorem withReply_rwait (r : Reply) : (withReply r s).rwait = s.rwait := rfl
@[simp] theorem withReply_errcode (r : Reply) : (withReply r s).errcode = s.errcode := rfl
@[simp] theorem withReply_cmdreg (r : Reply) : (withReply r s).cmdreg = s.cmdreg := rfl
@[simp] theorem withReply_hidden (r : Reply) : (withReply r s).hidden = s.hidden := rfl
@[simp] theorem withReply_draw (r : Reply) : (withReply r s).draw = s.draw := rfl
@[simp] theorem withReply_resetHeld (r : Reply) : (withReply r s).resetHeld = s.resetHeld := rfl
@[simp] theorem withReply_schedule (r : Reply) : (withReply r s).schedule = s.schedule := rfl
@[simp] theorem withReply_reply (r : Reply) : (withReply r s).reply = some r := rfl

@[simp] theorem withSchedule_limbs (rest : List Event) : (withSchedule rest s).limbs = s.limbs := rfl
@[simp] theorem withSchedule_regs (rest : List Event) : (withSchedule rest s).regs = s.regs := rfl
@[simp] theorem withSchedule_ie (rest : List Event) : (withSchedule rest s).ie = s.ie := rfl
@[simp] theorem withSchedule_busy (rest : List Event) : (withSchedule rest s).busy = s.busy := rfl
@[simp] theorem withSchedule_done (rest : List Event) : (withSchedule rest s).done = s.done := rfl
@[simp] theorem withSchedule_t (rest : List Event) : (withSchedule rest s).t = s.t := rfl
@[simp] theorem withSchedule_err (rest : List Event) : (withSchedule rest s).err = s.err := rfl
@[simp] theorem withSchedule_rwait (rest : List Event) : (withSchedule rest s).rwait = s.rwait := rfl
@[simp] theorem withSchedule_errcode (rest : List Event) : (withSchedule rest s).errcode = s.errcode := rfl
@[simp] theorem withSchedule_cmdreg (rest : List Event) : (withSchedule rest s).cmdreg = s.cmdreg := rfl
@[simp] theorem withSchedule_hidden (rest : List Event) : (withSchedule rest s).hidden = s.hidden := rfl
@[simp] theorem withSchedule_draw (rest : List Event) : (withSchedule rest s).draw = s.draw := rfl
@[simp] theorem withSchedule_resetHeld (rest : List Event) : (withSchedule rest s).resetHeld = s.resetHeld := rfl
@[simp] theorem withSchedule_schedule (rest : List Event) : (withSchedule rest s).schedule = rest := rfl
@[simp] theorem withSchedule_reply (rest : List Event) : (withSchedule rest s).reply = s.reply := rfl

@[simp] theorem assertReset_limbs : (assertReset s).limbs = s.limbs := rfl
@[simp] theorem assertReset_regs : (assertReset s).regs = Vector.replicate Config.nreg 0 := rfl
@[simp] theorem assertReset_ie : (assertReset s).ie = false := rfl
@[simp] theorem assertReset_busy : (assertReset s).busy = false := rfl
@[simp] theorem assertReset_done : (assertReset s).done = false := rfl
@[simp] theorem assertReset_t : (assertReset s).t = false := rfl
@[simp] theorem assertReset_err : (assertReset s).err = false := rfl
@[simp] theorem assertReset_rwait : (assertReset s).rwait = false := rfl
@[simp] theorem assertReset_errcode : (assertReset s).errcode = 0 := rfl
@[simp] theorem assertReset_cmdreg : (assertReset s).cmdreg = 0 := rfl
@[simp] theorem assertReset_hidden : (assertReset s).hidden = none := rfl
@[simp] theorem assertReset_draw : (assertReset s).draw = none := rfl
@[simp] theorem assertReset_resetHeld : (assertReset s).resetHeld = true := rfl
@[simp] theorem assertReset_schedule : (assertReset s).schedule = s.schedule := rfl
@[simp] theorem assertReset_reply : (assertReset s).reply = s.reply := rfl

@[simp] theorem releaseReset_limbs : (releaseReset s).limbs = s.limbs := rfl
@[simp] theorem releaseReset_regs : (releaseReset s).regs = s.regs := rfl
@[simp] theorem releaseReset_ie : (releaseReset s).ie = s.ie := rfl
@[simp] theorem releaseReset_busy : (releaseReset s).busy = s.busy := rfl
@[simp] theorem releaseReset_done : (releaseReset s).done = s.done := rfl
@[simp] theorem releaseReset_t : (releaseReset s).t = s.t := rfl
@[simp] theorem releaseReset_err : (releaseReset s).err = s.err := rfl
@[simp] theorem releaseReset_rwait : (releaseReset s).rwait = s.rwait := rfl
@[simp] theorem releaseReset_errcode : (releaseReset s).errcode = s.errcode := rfl
@[simp] theorem releaseReset_cmdreg : (releaseReset s).cmdreg = s.cmdreg := rfl
@[simp] theorem releaseReset_hidden : (releaseReset s).hidden = s.hidden := rfl
@[simp] theorem releaseReset_draw : (releaseReset s).draw = s.draw := rfl
@[simp] theorem releaseReset_resetHeld : (releaseReset s).resetHeld = false := rfl
@[simp] theorem releaseReset_schedule : (releaseReset s).schedule = s.schedule := rfl
@[simp] theorem releaseReset_reply : (releaseReset s).reply = s.reply := rfl

@[simp] theorem unanswered_limbs : (unanswered s).limbs = s.limbs := rfl
@[simp] theorem unanswered_regs : (unanswered s).regs = s.regs := rfl
@[simp] theorem unanswered_ie : (unanswered s).ie = s.ie := rfl
@[simp] theorem unanswered_busy : (unanswered s).busy = s.busy := rfl
@[simp] theorem unanswered_done : (unanswered s).done = s.done := rfl
@[simp] theorem unanswered_t : (unanswered s).t = s.t := rfl
@[simp] theorem unanswered_err : (unanswered s).err = s.err := rfl
@[simp] theorem unanswered_rwait : (unanswered s).rwait = s.rwait := rfl
@[simp] theorem unanswered_errcode : (unanswered s).errcode = s.errcode := rfl
@[simp] theorem unanswered_cmdreg : (unanswered s).cmdreg = s.cmdreg := rfl
@[simp] theorem unanswered_hidden : (unanswered s).hidden = s.hidden := rfl
@[simp] theorem unanswered_draw : (unanswered s).draw = s.draw := rfl
@[simp] theorem unanswered_resetHeld : (unanswered s).resetHeld = s.resetHeld := rfl
@[simp] theorem unanswered_schedule : (unanswered s).schedule = s.schedule := rfl
@[simp] theorem unanswered_reply : (unanswered s).reply = none := rfl

@[simp] theorem idled_limbs : (idled s).limbs = s.limbs := rfl
@[simp] theorem idled_regs : (idled s).regs = s.regs := rfl
@[simp] theorem idled_ie : (idled s).ie = s.ie := rfl
@[simp] theorem idled_busy : (idled s).busy = false := rfl
@[simp] theorem idled_done : (idled s).done = s.done := rfl
@[simp] theorem idled_t : (idled s).t = s.t := rfl
@[simp] theorem idled_err : (idled s).err = false := rfl
@[simp] theorem idled_rwait : (idled s).rwait = false := rfl
@[simp] theorem idled_errcode : (idled s).errcode = 0 := rfl
@[simp] theorem idled_cmdreg : (idled s).cmdreg = s.cmdreg := rfl
@[simp] theorem idled_hidden : (idled s).hidden = none := rfl
@[simp] theorem idled_draw : (idled s).draw = none := rfl
@[simp] theorem idled_resetHeld : (idled s).resetHeld = false := rfl
@[simp] theorem idled_schedule : (idled s).schedule = s.schedule := rfl
@[simp] theorem idled_reply : (idled s).reply = s.reply := rfl

@[simp] theorem accept_none (h : InFlight) : accept none h s = { s with busy := true, hidden := some h } := rfl
@[simp] theorem accept_some (c : ErrCode) (h : InFlight) : accept (some c) h s = raiseFault c s := rfl

end

end Sys2Proof.Machine
end

