-- ==== Sys2Proof/Laws/Ops.lean ====
section
/-! SUPPORT. What each shared operation can do, said once: the engine state by the rows of R46, registers, acceptance and the
common shape of the commands, the port, the events and the step. -/

namespace Sys2Proof.Machine

section EngineState
variable {s : State}

theorem engineState_of_idle (h : s.Idle) : engineState s = .idle := by
  simp [engineState, h.1, h.2.2]

theorem engineState_of_running (h : s.Running) : engineState s = .running := by
  simp [engineState, h.1, h.2.1, h.2.2]

theorem engineState_of_waiting (h : s.Waiting) : engineState s = .waiting := by
  simp [engineState, h.1, h.2.1, h.2.2]

theorem engineState_of_err (h : s.err = true) : engineState s = .faulted := by
  simp [engineState, h]

theorem engineState_idle_iff : engineState s = .idle ↔ s.err = false ∧ s.busy = false := by
  unfold engineState
  cases s.err <;> cases s.busy <;> cases s.rwait <;> simp

theorem engineState_running_iff : engineState s = .running ↔ s.Running := by
  unfold engineState
  cases h : s.err <;> cases h' : s.busy <;> cases h'' : s.rwait <;> simp [State.Running, h, h', h'']

theorem engineState_waiting_iff : engineState s = .waiting ↔ s.Waiting := by
  unfold engineState
  cases h : s.err <;> cases h' : s.busy <;> cases h'' : s.rwait <;> simp [State.Waiting, h, h', h'']

theorem engineState_faulted_iff : engineState s = .faulted ↔ s.err = true := by
  unfold engineState
  cases h : s.err <;> cases h' : s.busy <;> cases h'' : s.rwait <;> simp

end EngineState

section Registers
variable (s : State) (r r' : Reg) (v : Nat)

@[simp] theorem readReg_writeReg_same : readReg (writeReg r v s) r = v := by
  simp [readReg]

theorem readReg_writeReg_other (h : r' ≠ r) : readReg (writeReg r v s) r' = readReg s r' := by
  have : r.val ≠ r'.val := fun e => h (Fin.ext e.symm)
  simp [readReg, this]

theorem readReg_congr {s s' : State} (h : s'.regs = s.regs) : readReg s' r = readReg s r := by
  simp [readReg, h]

theorem readReg_completeReg : readReg (completeReg r v s) r' = readReg (writeReg r v s) r' := rfl

theorem readReg_completeFlag (b : Bool) : readReg (completeFlag b s) r = readReg s r := rfl

theorem readReg_resetEngine : readReg (resetEngine s) r = 0 := by
  simp [readReg]

end Registers

section Commands
variable {check : Option ErrCode} {latched : InFlight} {advance : InFlight → Result} {s : State}

theorem runCommand_idle (h : s.Idle) : runCommand check latched advance s = .next (accept check latched s) := by
  simp [runCommand, engineState_of_idle h]

theorem runCommand_running {f : InFlight} (h : s.Running) (hf : s.hidden = some f) :
    runCommand check latched advance s = advance f := by
  simp [runCommand, engineState_of_running h, hf]

/-- Everything a command can do: acceptance, its own next step, or hold. -/
theorem runCommand_cases {t : State} (h : runCommand check latched advance s = .next t) :
    (engineState s = .idle ∧ t = accept check latched s) ∨
      (∃ f, s.Running ∧ s.hidden = some f ∧ advance f = .next t) ∨
      ((engineState s = .waiting ∨ engineState s = .faulted) ∧ t = s) := by
  unfold runCommand at h
  cases he : engineState s with
  | idle => rw [he] at h; cases h; exact .inl ⟨rfl, rfl⟩
  | running =>
    rw [he] at h
    cases hf : s.hidden with
    | none => rw [hf] at h; cases h
    | some f => rw [hf] at h; exact .inr (.inl ⟨f, engineState_running_iff.1 he, rfl, h⟩)
  | waiting => rw [he] at h; cases h; exact .inr (.inr ⟨.inl rfl, rfl⟩)
  | faulted => rw [he] at h; cases h; exact .inr (.inr ⟨.inr rfl, rfl⟩)

theorem completeField_cases {rd : Reg} {v : Nat} {f : InFlight} {t : State}
    (h : completeField rd v f s = .next t) : f.work = .field ∧ t = completeReg rd v s := by
  unfold completeField at h
  cases hw : f.work <;> simp only [hw] at h <;> cases h
  exact ⟨rfl, rfl⟩

theorem completePow_cases {rd : Reg} {f : InFlight} {t : State} (h : completePow rd f s = .next t) :
    ∃ w, f.work = .pow w ∧ t = completeReg rd (powFinish f.n w) s := by
  unfold completePow at h
  cases hw : f.work <;> simp only [hw] at h <;> cases h
  exact ⟨_, rfl, rfl⟩

theorem completeWitness_cases {f : InFlight} {t : State} (h : completeWitness f s = .next t) :
    ∃ w, f.work = .witness w ∧ t = completeFlag (witnessFinish f.a f.n w) s := by
  unfold completeWitness at h
  cases hw : f.work <;> simp only [hw] at h <;> cases h
  exact ⟨_, rfl, rfl⟩

theorem nextTrial_cases (rounds i : Nat) (f : InFlight) (s : State) :
    (i < rounds ∧
        nextTrial rounds i f s = requestDraw (drawBounds f.n) { f with work := .isPrime (i + 1) none } s) ∨
      (rounds ≤ i ∧ nextTrial rounds i f s = completeFlag true s) := by
  unfold nextTrial
  by_cases hi : i < rounds
  · exact .inl ⟨hi, if_pos hi⟩
  · exact .inr ⟨Nat.le_of_not_lt hi, if_neg hi⟩

theorem advanceIsprime_cases {rounds : Nat} {f : InFlight} {t : State} (h : advanceIsprime rounds f s = .next t) :
    ∃ i trial, f.work = .isPrime i trial ∧
      ((∃ b, immediateDecision f.n = some b ∧ t = completeFlag b s) ∨
        (immediateDecision f.n = none ∧ t = trialLoop rounds i trial f s)) := by
  unfold advanceIsprime at h
  cases hw : f.work with
  | isPrime i trial =>
    simp only [hw] at h
    refine ⟨i, trial, rfl, ?_⟩
    cases hd : immediateDecision f.n with
    | some b => rw [hd] at h; cases h; exact .inl ⟨b, rfl, rfl⟩
    | none => rw [hd] at h; cases h; exact .inr ⟨rfl, rfl⟩
  | field => simp only [hw] at h; cases h
  | pow w => simp only [hw] at h; cases h
  | witness w => simp only [hw] at h; cases h

end Commands

section Arithmetic

theorem checkModulus_zero : checkModulus 0 = some .modZero := rfl

theorem checkModulus_pos {n : Nat} (h : n ≠ 0) : checkModulus n = none := if_neg h

theorem checkWitness_ok {n : Nat} (h : 2 ≤ n) : checkWitness n = none := by
  have h0 : n ≠ 0 := by omega
  have h1 : n ≠ 1 := by omega
  simp [checkWitness, h0, h1]

theorem modsub_lt {a b n : Nat} (h : 0 < n) : modsub a b n < n := by
  have ha := Nat.mod_lt a h
  have hb := Nat.mod_lt b h
  unfold modsub
  split <;> omega

end Arithmetic

section Agents
variable {s t : State}

/-- The events while reset is not held and what each calls; while it is held, `heldEvent` (R290). -/
theorem takeEvent_free (e : Event) (h : s.resetHeld = false) : takeEvent e s = freeEvent e s := by
  simp [takeEvent, h]

theorem takeEvent_held (e : Event) (h : s.resetHeld = true) : takeEvent e s = .next (heldEvent e s) := by
  simp [takeEvent, h]

theorem step_of_nil (h : s.schedule = []) : step s = takeEvent .engine s := by
  simp [step, h]

theorem step_of_cons {e : Event} {rest : List Event} (h : s.schedule = e :: rest) :
    step s = takeEvent e (withSchedule rest s) := by
  simp [step, h]

/-- Everything an engine step can do: run the command in `CMDREG`, or nothing. -/
theorem engineStep_cases (h : engineStep s = .next t) :
    (∃ i, s.Running ∧ decode s.cmdreg = .ok i ∧ exec i s = .next t) ∨ (engineState s ≠ .running ∧ t = s) := by
  unfold engineStep at h
  cases he : engineState s with
  | running =>
    rw [he] at h
    cases hd : decode s.cmdreg with
    | ok i => rw [hd] at h; exact .inl ⟨i, engineState_running_iff.1 he, rfl, h⟩
    | error e => rw [hd] at h; cases h
  | idle => rw [he] at h; cases h; exact .inr ⟨by simp, rfl⟩
  | waiting => rw [he] at h; cases h; exact .inr ⟨by simp, rfl⟩
  | faulted => rw [he] at h; cases h; exact .inr ⟨by simp, rfl⟩

/-- Everything an answer can do: the receipt, or nothing (R166, R292). -/
theorem answerStep_cases {val : Nat} (h : answerStep val s = .next t) :
    (∃ b f, s.Waiting ∧ s.draw = some b ∧ s.hidden = some f ∧ t = receiveAnswer val b f s) ∨
      (engineState s ≠ .waiting ∧ t = s) := by
  unfold answerStep at h
  cases he : engineState s with
  | waiting =>
    rw [he] at h
    cases hb : s.draw <;> cases hf : s.hidden <;> rw [hb, hf] at h <;> cases h
    exact .inl ⟨_, _, engineState_waiting_iff.1 he, rfl, rfl, rfl⟩
  | idle => rw [he] at h; cases h; exact .inr ⟨by simp, rfl⟩
  | running => rw [he] at h; cases h; exact .inr ⟨by simp, rfl⟩
  | faulted => rw [he] at h; cases h; exact .inr ⟨by simp, rfl⟩

/-- Everything a command write can do, by the gates of R254. -/
theorem commandWrite_cases {w : Word} (h : commandWrite w s = .next t) :
    (s.err = true ∧ t = withReply writeBuserr s) ∨
      (s.err = false ∧ s.busy = true ∧ t = withReply writeBuserr (raiseFault .busy s)) ∨
      (s.err = false ∧ s.busy = false ∧ acceptCommand w (withReply writeOk s) = .next t) := by
  unfold commandWrite at h
  cases he : s.err <;> cases hb : s.busy <;> simp [he, hb] at h
  · exact .inr (.inr ⟨rfl, rfl, h⟩)
  · exact .inr (.inl ⟨rfl, rfl, h.symm⟩)
  · exact .inl ⟨rfl, h.symm⟩
  · exact .inl ⟨rfl, h.symm⟩

/-- Everything an acceptance can do: fault 1, or the command's own acceptance (R44). -/
theorem acceptCommand_cases {w : Word} (h : acceptCommand w s = .next t) :
    (∃ e, decode w = .error e ∧ t = raiseFault .illegal (latchCommand w s)) ∨
      (∃ i, decode w = .ok i ∧ exec i (latchCommand w s) = .next t) := by
  unfold acceptCommand at h
  cases hd : decode w with
  | error e => rw [hd] at h; cases h; exact .inl ⟨e, rfl, rfl⟩
  | ok i => rw [hd] at h; exact .inr ⟨i, rfl, h⟩

/-- Everything a window write can do, by the same gates. -/
theorem windowWrite_cases (i : Reg) (j : Nat) (d : Word) (s : State) :
    (s.err = true ∧ windowWrite i j d s = withReply writeBuserr s) ∨
      (s.err = false ∧ s.busy = true ∧ windowWrite i j d s = withReply writeBuserr (raiseFault .busy s)) ∨
      (s.err = false ∧ s.busy = false ∧ windowWrite i j d s = withReply writeOk (writeLimb i j d s)) := by
  unfold windowWrite
  cases s.err <;> cases s.busy <;> simp

/-- The two kinds of `CTRL` write: soft reset, or new `IE` and perhaps a cleared `DONE` (R31). -/
theorem controlWrite_cases (v : Word) (s : State) :
    (v.getLsbD 1 = true ∧ controlWrite v s = resetEngine s) ∨
      (v.getLsbD 1 = false ∧
        controlWrite v s = { s with ie := v.getLsbD 0, done := if v.getLsbD 2 then false else s.done }) := by
  unfold controlWrite
  cases h : v.getLsbD 1
  · exact .inr ⟨rfl, by simp⟩
  · exact .inl ⟨rfl, by simp⟩

end Agents

section Instance

theorem accept_limbs (c : Option ErrCode) (l : InFlight) (s : State) : (accept c l s).limbs = s.limbs := by
  cases c <;> rfl

theorem runCommand_limbs {c : Option ErrCode} {l : InFlight} {adv : InFlight → Result} {s t : State}
    (ha : ∀ f t, adv f = .next t → t.limbs = s.limbs) (h : runCommand c l adv s = .next t) : t.limbs = s.limbs := by
  rcases runCommand_cases h with ⟨-, rfl⟩ | ⟨f, -, -, hf⟩ | ⟨-, rfl⟩
  · exact accept_limbs _ _ _
  · exact ha f t hf
  · rfl

/-- No command changes the instance. -/
theorem exec_limbs {i : Instr} {s t : State} (h : exec i s = .next t) : t.limbs = s.limbs := by
  cases i with
  | modred => exact runCommand_limbs (fun f t hf => (completeField_cases hf).2 ▸ rfl) h
  | modadd => exact runCommand_limbs (fun f t hf => (completeField_cases hf).2 ▸ rfl) h
  | modsub => exact runCommand_limbs (fun f t hf => (completeField_cases hf).2 ▸ rfl) h
  | modmul => exact runCommand_limbs (fun f t hf => (completeField_cases hf).2 ▸ rfl) h
  | powmod => exact runCommand_limbs (fun f t hf => by obtain ⟨w, -, rfl⟩ := completePow_cases hf; rfl) h
  | witness => exact runCommand_limbs (fun f t hf => by obtain ⟨w, -, rfl⟩ := completeWitness_cases hf; rfl) h
  | isprime =>
    refine runCommand_limbs (fun f t hf => ?_) h
    obtain ⟨i, tr, -, ⟨b, -, rfl⟩ | ⟨-, rfl⟩⟩ := advanceIsprime_cases hf
    · rfl
    · unfold trialLoop nextTrial
      cases tr <;> dsimp only <;> split <;> first | rfl | (split <;> rfl)

theorem hostWrite_limbs {w : AccessWidth} {a : Nat} {v : Word} {s t : State} (h : hostWrite w a v s = .next t) : t.limbs = s.limbs := by
  unfold hostWrite at h
  cases hp : portEntry w s.limbs a with
  | none => rw [hp] at h; cases h; rfl
  | some e =>
    rw [hp] at h
    cases e with
    | ctrl => cases h; simp only [withReply, controlWrite]; split <;> rfl
    | status => cases h; rfl
    | caps => cases h; rfl
    | limb i j => cases h; simp only [windowWrite]; split <;> [rfl; (split <;> rfl)]
    | cmd =>
      dsimp only [commandWrite] at h
      split at h
      · cases h; rfl
      · split at h
        · cases h; rfl
        · unfold acceptCommand at h
          cases hd : decode v with
          | error e => rw [hd] at h; cases h; rfl
          | ok i => rw [hd] at h; exact (exec_limbs (s := latchCommand v (withReply writeOk s)) h).trans rfl

/-- No event changes the instance (R9). -/
theorem takeEvent_limbs {e : Event} {s t : State} (h : takeEvent e s = .next t) : t.limbs = s.limbs := by
  unfold takeEvent at h
  split at h
  · cases h; cases e <;> rfl
  · cases e with
    | read => cases h; rfl
    | write w a v => exact hostWrite_limbs h
    | engine =>
      rcases engineStep_cases h with ⟨i, -, -, hx⟩ | ⟨-, rfl⟩
      · exact exec_limbs hx
      · rfl
    | pass => cases h; unfold passStep; split <;> rfl
    | answer v =>
      rcases answerStep_cases h with ⟨b, f, -, -, -, rfl⟩ | ⟨-, rfl⟩
      · unfold receiveAnswer; split <;> rfl
      · rfl
    | resetAssert => cases h; rfl
    | resetRelease => cases h; rfl

end Instance

/-- Where the next event is the script's last line, the run ends right after it (R311). -/
theorem afterLastLine_of_last {k : Nat} {s t : State} (hl : isLastLine s.schedule = true) (hs : step s = .next t) :
    afterLastLine (k + 1) s = some t := by
  simp [afterLastLine, hs, hl]

/-- Before the last line the run goes on. -/
theorem afterLastLine_of_not_last {k : Nat} {s t : State} (hl : isLastLine s.schedule = false)
    (hs : step s = .next t) : afterLastLine (k + 1) s = afterLastLine k t := by
  simp [afterLastLine, hs, hl]

end Sys2Proof.Machine
end

