-- ==== Sys2Proof/Laws/HostRun.lean ====
section
/-! SUPPORT. What each operation of a host run can do. -/

namespace Sys2Proof.Machine

theorem takeEvents_append (es fs : List Event) (s : State) :
    takeEvents (es ++ fs) s =
      match takeEvents es s with
      | .next t => takeEvents fs t
      | .fault r => .fault r
      | .refused r => .refused r := by
  induction es generalizing s with
  | nil => rfl
  | cons e es ih =>
    simp only [List.cons_append, takeEvents]
    cases takeEvent e s with
    | next t => exact ih t
    | fault r => rfl
    | refused r => rfl

@[simp] theorem takeEvents_singleton (e : Event) (s : State) : takeEvents [e] s = takeEvent e s := by
  simp only [takeEvents]
  cases takeEvent e s <;> rfl

/-- Everything a transaction that gets its answer can do: what came before it, its own event, nothing else. -/
theorem hostAccess_ok {e : Event} {h h' : Session} {r : Reply} (hx : (hostAccess e).run.run h = (.ok r, h')) :
    ∃ s, takeEvents (h.between.headD [] ++ [e]) h.engine = .next s ∧ s.reply = some r ∧
      h' = { h with engine := s, between := h.between.tail } := by
  unfold hostAccess ExceptT.run StateT.run at hx
  dsimp only at hx
  cases hs : takeEvents (h.between.headD [] ++ [e]) h.engine with
  | next s =>
    rw [hs] at hx
    cases hr : s.reply with
    | none => simp only [hr] at hx; cases hx
    | some r' => simp only [hr] at hx; cases hx; exact ⟨s, rfl, hr, rfl⟩
  | fault f => rw [hs] at hx; cases hx
  | refused f => rw [hs] at hx; cases hx

/-- A read with nothing between answers what the map gives, and moves nothing but the last answer (R61). -/
theorem hostAccess_read_quiet {h : Session} (addr : Nat) (hb : h.between = []) (hr : h.engine.resetHeld = false) :
    (hostAccess (scriptRd addr)).run.run h =
      (.ok (readReply .word addr h.engine),
        { h with engine := withReply (readReply .word addr h.engine) h.engine }) := by
  unfold hostAccess ExceptT.run StateT.run
  simp [hb, takeEvent, hr, scriptRd, freeEvent, hostRead, withReply]

/-- A read that gets its answer was made while reset is released, and answers what the map gives in the state it leaves. -/
theorem hostAccess_read_ok {addr : Nat} {h h' : Session} {r : Reply}
    (hx : (hostAccess (scriptRd addr)).run.run h = (.ok r, h')) :
    r = readReply .word addr h'.engine ∧ h'.engine.reply = some r ∧ h'.engine.resetHeld = false := by
  obtain ⟨s, hs, hr, rfl⟩ := hostAccess_ok hx
  rw [takeEvents_append] at hs
  cases hu : takeEvents (h.between.headD []) h.engine with
  | next u =>
    simp only [hu, takeEvents_singleton, takeEvent] at hs
    cases hh : u.resetHeld with
    | true => simp only [hh, if_true] at hs; cases hs; cases hr
    | false => simp only [hh] at hs; cases hs; cases hr; exact ⟨rfl, rfl, hh⟩
  | fault f => simp only [hu] at hs; cases hs
  | refused f => simp only [hu] at hs; cases hs

/-- A line the assembler refuses makes no transaction (R82). -/
@[simp] theorem hostExpand_none (h : Session) : (hostExpand none).run.run h = (.error .noEncoding, h) := rfl

/-- A host draw is an integer of the range it is asked from (R211). -/
theorem hostDraw_mem {range : Bounds} {h h' : Session} {v : Nat} (hx : (hostDraw range).run.run h = (.ok v, h')) :
    range.lo ≤ v ∧ v ≤ range.hi := by
  unfold hostDraw ExceptT.run StateT.run at hx
  by_cases hr : range.hi < range.lo
  · simp only [hr, if_true] at hx; cases hx
  · simp only [hr, if_false] at hx
    cases hd : h.draws with
    | nil => simp only [hd] at hx; cases hx
    | cons d ds =>
      simp only [hd] at hx
      cases hx
      have := Nat.mod_lt d (show 0 < range.hi + 1 - range.lo by omega)
      omega

/-- Every integer of the range is one the source can give (R211). -/
theorem hostDraw_reaches {range : Bounds} {v : Nat} (h : Session) (hl : range.lo ≤ v) (hh : v ≤ range.hi) :
    ((hostDraw range).run.run { h with draws := [v - range.lo] }).1 = .ok v := by
  unfold hostDraw ExceptT.run StateT.run
  have hr : ¬ range.hi < range.lo := by omega
  have hm : (v - range.lo) % (range.hi + 1 - range.lo) = v - range.lo := Nat.mod_eq_of_lt (by omega)
  simp only [hr, if_false, hm]
  congr 1
  omega

theorem takeEvents_limbs {es : List Event} {s t : State} (h : takeEvents es s = .next t) : t.limbs = s.limbs := by
  induction es generalizing s with
  | nil => cases h; rfl
  | cons e es ih =>
    simp only [takeEvents] at h
    cases he : takeEvent e s with
    | next u => rw [he] at h; exact (ih h).trans (takeEvent_limbs he)
    | fault r => rw [he] at h; cases h
    | refused r => rw [he] at h; cases h

/-- A run of two parts: the second starts in the session the first leaves. -/
theorem hostRun_bind {α β : Type} (m : HostRun α) (f : α → HostRun β) (h : Session) :
    (m >>= f).run.run h =
      match m.run.run h with
      | (.ok a, h') => (f a).run.run h'
      | (.error e, h') => (.error e, h') := by
  show (match m.run.run h with | (r, h') => (ExceptT.bindCont f r).run h') = _
  rcases m.run.run h with ⟨r, h'⟩
  cases r <;> rfl

/-- `HostTame m`: run from any session, `m` reports no used-up budget, gives the source no number back and keeps the instance. -/
def HostTame {α : Type} (m : HostRun α) : Prop :=
  ∀ h, (m.run.run h).1 ≠ .error .searchExhausted ∧
    (m.run.run h).2.draws.length ≤ h.draws.length ∧ (m.run.run h).2.engine.limbs = h.engine.limbs

theorem hostTame_pure {α : Type} (a : α) : HostTame (pure a : HostRun α) :=
  fun _ => ⟨nofun, Nat.le_refl _, rfl⟩

theorem hostTame_throw {α : Type} {e : HostError} (he : e ≠ .searchExhausted) : HostTame (throw e : HostRun α) :=
  fun _ => ⟨fun hx => he (Except.error.inj hx), Nat.le_refl _, rfl⟩

theorem hostTame_bind {α β : Type} {m : HostRun α} {f : α → HostRun β} (hm : HostTame m) (hf : ∀ a, HostTame (f a)) :
    HostTame (m >>= f) := by
  intro h
  rw [hostRun_bind]
  have h1 := hm h
  rcases hr : m.run.run h with ⟨r, h'⟩
  rw [hr] at h1
  cases r with
  | error e => exact ⟨fun hx => h1.1 (by simpa using hx), h1.2⟩
  | ok a =>
    have h2 := hf a h'
    exact ⟨h2.1, h2.2.1.trans h1.2.1, h2.2.2.trans h1.2.2⟩

theorem hostTame_get : HostTame (get : HostRun Session) := fun _ => ⟨nofun, Nat.le_refl _, rfl⟩

theorem hostAccess_tame (e : Event) : HostTame (hostAccess e) := by
  intro h
  unfold hostAccess ExceptT.run StateT.run
  dsimp only
  cases hs : takeEvents (h.between.headD [] ++ [e]) h.engine with
  | next s =>
    have hl := takeEvents_limbs hs
    cases hr : s.reply <;> simp only [hr] <;> exact ⟨nofun, Nat.le_refl _, hl⟩
  | fault f => exact ⟨nofun, Nat.le_refl _, rfl⟩
  | refused f => exact ⟨nofun, Nat.le_refl _, rfl⟩

theorem hostAccesses_tame (es : List Event) : HostTame (hostAccesses es) := by
  induction es with
  | nil => exact hostTame_pure _
  | cons e es ih => exact hostTame_bind (hostAccess_tame e) fun _ => hostTame_bind ih fun _ => hostTame_pure _

theorem hostExpand_tame (o : Option (List Event)) : HostTame (hostExpand o) := by
  cases o with
  | none => exact hostTame_throw nofun
  | some es => exact hostTame_bind (hostAccesses_tame es) fun _ => hostTame_pure _

theorem hostLdr_tame (i : Reg) (v : Nat) : HostTame (hostLdr i v) :=
  hostTame_bind hostTame_get fun _ => hostExpand_tame _

theorem hostCmd_tame (i : Instr) : HostTame (hostCmd i) := hostExpand_tame _

theorem hostStr_tame (i : Reg) : HostTame (hostStr i) :=
  hostTame_bind hostTame_get fun _ => hostTame_bind (hostAccesses_tame _) fun _ => hostTame_pure _

theorem hostWaitLoop_tame (polls : Nat) : HostTame (hostWaitLoop polls) := by
  induction polls with
  | zero => exact hostTame_throw nofun
  | succ polls ih =>
    refine hostTame_bind (hostAccess_tame _) fun r => ?_
    by_cases hw : waitOver (replyDatum r) = true
    · simp only [hw, if_true]; exact hostTame_pure _
    · simp only [hw]; exact ih

theorem hostWait_tame : HostTame hostWait :=
  hostTame_bind hostTame_get fun _ => hostWaitLoop_tame _

theorem hostWaitChecked_tame : HostTame hostWaitChecked := by
  refine hostTame_bind hostWait_tame fun status => ?_
  by_cases he : status.getLsbD 3 = true
  · simp only [he, if_true]
    exact hostTame_bind (hostTame_bind (hostAccess_tame _) fun _ => hostTame_pure _) fun _ => hostTame_throw nofun
  · simp only [he]; exact hostTame_pure _

end Sys2Proof.Machine
end

