-- ==== Sys2Proof/Laws/HostSequences.lean ====
section
/-! SUPPORT. The searches of the host software without a cap (R228): they end by their own means and never report a used-up
budget. -/

namespace Sys2Proof.Machine

theorem hostIsprime_tame (c : Nat) : HostTame (hostIsprime c) :=
  hostTame_bind (hostLdr_tame _ _) fun _ => hostTame_bind (hostCmd_tame _) fun _ =>
    hostTame_bind hostWaitChecked_tame fun _ => hostTame_pure _

theorem genAccept_tame (polarity : GenPolarity) (g p : Nat) : HostTame (genAccept polarity g p) :=
  hostTame_bind (hostLdr_tame _ _) fun _ => hostTame_bind (hostLdr_tame _ _) fun _ =>
    hostTame_bind (hostLdr_tame _ _) fun _ => hostTame_bind (hostCmd_tame _) fun _ =>
    hostTame_bind hostWait_tame fun _ => hostTame_bind (hostCmd_tame _) fun _ =>
    hostTame_bind hostWaitChecked_tame fun _ => hostTame_bind (hostStr_tame _) fun _ =>
    hostTame_bind (hostStr_tame _) fun _ => hostTame_pure _

/-- `m` reports no used-up budget from session `h`, and a result leaves fewer numbers in the source and the same instance. -/
def HostDraws {α : Type} (m : HostRun α) (h : Session) : Prop :=
  (m.run.run h).1 ≠ .error .searchExhausted ∧
    ∀ a, (m.run.run h).1 = .ok a →
      (m.run.run h).2.draws.length < h.draws.length ∧ (m.run.run h).2.engine.limbs = h.engine.limbs

theorem hostDraw_draws (range : Bounds) (h : Session) : HostDraws (hostDraw range) h := by
  unfold HostDraws hostDraw ExceptT.run StateT.run
  by_cases hr : range.hi < range.lo
  · simp only [hr, if_true]; exact ⟨nofun, nofun⟩
  · simp only [hr, if_false]
    cases hd : h.draws with
    | nil => exact ⟨nofun, nofun⟩
    | cons d ds => exact ⟨nofun, fun _ _ => ⟨Nat.lt_succ_self _, rfl⟩⟩

/-- One try, then a decision that may go on: the shape of both prime searches. -/
theorem hostDraws_try {α : Type} {draw : HostRun Nat} {test : Nat → HostRun Bool} {found : Nat → α} {more : HostRun α}
    {h : Session} (hd : HostDraws draw h) (ht : ∀ c, HostTame (test c))
    (hm : ∀ h', h'.draws.length < h.draws.length → h'.engine.limbs = h.engine.limbs → HostDraws more h') :
    HostDraws (do let c ← draw; if ← test c then return found c else more) h := by
  unfold HostDraws
  rw [hostRun_bind]
  rcases hr : draw.run.run h with ⟨r, h1⟩
  unfold HostDraws at hd
  rw [hr] at hd
  cases r with
  | error e => exact ⟨fun hx => hd.1 (by simpa using hx), nofun⟩
  | ok c =>
    have hd1 := hd.2 c rfl
    simp only
    rw [hostRun_bind]
    have h2 := ht c h1
    rcases hr2 : (test c).run.run h1 with ⟨r2, h3⟩
    rw [hr2] at h2
    cases r2 with
    | error e => exact ⟨fun hx => h2.1 (by simpa using hx), nofun⟩
    | ok b =>
      have hl : h3.draws.length < h.draws.length := Nat.lt_of_le_of_lt h2.2.1 hd1.1
      have hw : h3.engine.limbs = h.engine.limbs := h2.2.2.trans hd1.2
      cases b with
      | true => exact ⟨nofun, fun _ _ => ⟨hl, hw⟩⟩
      | false =>
        have h4 := hm h3 hl hw
        exact ⟨h4.1, fun a ha => ⟨(h4.2 a ha).1.trans hl, (h4.2 a ha).2.trans hw⟩⟩

theorem randomPrimeLoop_draws (range : Bounds) (tries : Nat) (h : Session) (ht : h.draws.length < tries) :
    HostDraws (randomPrimeLoop range tries) h := by
  induction tries generalizing h with
  | zero => exact absurd ht (Nat.not_lt_zero _)
  | succ tries ih =>
    exact hostDraws_try (hostDraw_draws range h) hostIsprime_tame fun h' hl _ => ih h' (by omega)

/-- A sequence that begins with a requirement on the width. -/
theorem hostDraws_require {α : Type} {ok : Nat → Bool} {m : HostRun α} {h : Session} (hm : HostDraws m h) :
    HostDraws (do hostRequire (ok (← hostWidth)) .noEncoding; m) h := by
  have e : (do hostRequire (ok (← hostWidth)) .noEncoding; m : HostRun α).run.run h =
      ((hostRequire (ok (operandWidth h.engine)) .noEncoding) >>= fun _ => m).run.run h := rfl
  unfold HostDraws
  rw [e]
  cases ok (operandWidth h.engine) with
  | true => exact hm
  | false => exact ⟨nofun, nofun⟩

/-- Without a cap RANDOMPRIME never reports a used-up budget (R228). -/
theorem randomPrime_uncapped (range : Bounds) (h : Session) : HostDraws (randomPrime none range) h :=
  hostDraws_require (ok := fun W => decide (range.hi < 2 ^ W))
    (randomPrimeLoop_draws range (h.draws.length + 1) h (Nat.lt_succ_self _))

theorem safePrimeLoop_draws (range : Bounds) (tries : Nat) (h : Session) (ht : h.draws.length < tries) :
    HostDraws (safePrimeLoop none range tries) h := by
  induction tries generalizing h with
  | zero => exact absurd ht (Nat.not_lt_zero _)
  | succ tries ih =>
    exact hostDraws_try (randomPrime_uncapped range h) (fun q => hostIsprime_tame (2 * q + 1)) fun h' hl _ =>
      ih h' (by omega)

/-- Without a cap SAFEPRIME never reports a used-up budget (R228). -/
theorem safePrime_uncapped (range : Bounds) (h : Session) : HostDraws (safePrime none range) h :=
  hostDraws_require (ok := fun W => decide (2 * range.hi + 1 < 2 ^ W))
    (safePrimeLoop_draws range (h.draws.length + 1) h (Nat.lt_succ_self _))

theorem genAccept_too_wide (polarity : GenPolarity) (g p : Nat) (h : Session) (hg : 2 ^ operandWidth h.engine ≤ g) :
    ∀ b, ((genAccept polarity g p).run.run h).1 ≠ .ok b := by
  intro b
  unfold genAccept
  rw [hostRun_bind]
  have h1 := hostLdr_tame 0 p h
  rcases hr : (hostLdr 0 p).run.run h with ⟨r, h'⟩
  rw [hr] at h1
  cases r with
  | error e => exact nofun
  | ok u =>
    have e : (hostLdr 1 g).run.run h' = (.error .noEncoding, h') := by
      show (hostExpand (scriptLdr h'.engine.limbs 1 g)).run.run h' = _
      have : ¬ g < 2 ^ (32 * h'.engine.limbs) := by rw [h1.2.2]; exact Nat.not_lt.2 hg
      rw [scriptLdr, if_neg this]; rfl
    simp only
    rw [hostRun_bind, e]
    exact nofun

theorem generatorScan_ends (polarity : GenPolarity) (p tries g : Nat) (h : Session) (hn : tries ≠ 0)
    (ht : 2 ^ operandWidth h.engine < g + tries) :
    ((generatorScan polarity p tries g).run.run h).1 ≠ .error .searchExhausted := by
  induction tries generalizing g h with
  | zero => exact absurd rfl hn
  | succ tries ih =>
    simp only [generatorScan]
    rw [hostRun_bind]
    have h1 := genAccept_tame polarity g p h
    have h2 := genAccept_too_wide polarity g p h
    rcases hr : (genAccept polarity g p).run.run h with ⟨r, h'⟩
    rw [hr] at h1 h2
    cases r with
    | error e => exact fun hx => h1.1 (by simpa using hx)
    | ok b =>
      have hg : g < 2 ^ operandWidth h.engine := Nat.lt_of_not_le fun hle => h2 hle b rfl
      cases b with
      | true => exact nofun
      | false =>
        have hW : operandWidth h'.engine = operandWidth h.engine := congrArg (32 * ·) h1.2.2
        exact ih (g + 1) h' (by omega) (by rw [hW]; omega)

/-- Without a cap FINDGEN never reports a used-up budget (R228). -/
theorem findGenerator_uncapped (polarity : GenPolarity) (seed p : Nat) (h : Session) :
    ((findGenerator polarity none seed p).run.run h).1 ≠ .error .searchExhausted :=
  generatorScan_ends polarity p (2 ^ operandWidth h.engine - seed + 1) seed h (Nat.succ_ne_zero _) (by omega)

end Sys2Proof.Machine
end

