-- ==== Sys2Proof/Laws/PerInstr.lean ====
section
/-! SUPPORT. Family `RowMatch`: the word of every well-formed instruction meets the match and mask of its row (R96). -/

namespace Sys2Proof.Laws.RowMatch

/-- `(encode i and mask) = match` for the row of `i` (R96). -/
def Statement (i : Instr) : Prop :=
  i.wellFormed = true → encode i &&& opMask (instrOp i) = opMatch (instrOp i)

theorem modred (rd ra rm : Reg) : Statement (.modred rd ra rm) := by
  intro _
  revert rd ra rm
  decide +kernel

theorem modadd (rd ra rb rm : Reg) : Statement (.modadd rd ra rb rm) := by
  intro _
  revert rd ra rb rm
  decide +kernel

theorem modsub (rd ra rb rm : Reg) : Statement (.modsub rd ra rb rm) := by
  intro _
  revert rd ra rb rm
  decide +kernel

theorem modmul (rd ra rb rm : Reg) : Statement (.modmul rd ra rb rm) := by
  intro _
  revert rd ra rb rm
  decide +kernel

theorem powmod (rd ra rb rm : Reg) : Statement (.powmod rd ra rb rm) := by
  intro _
  revert rd ra rb rm
  decide +kernel

theorem witness (ra rm : Reg) : Statement (.witness ra rm) := by
  intro _
  revert ra rm
  decide +kernel

theorem isprime (rm : Reg) (rounds : Nat) : Statement (.isprime rm rounds) := by
  intro h
  have hr : rounds < 256 := Nat.lt_succ_of_le (of_decide_eq_true h)
  have all : ∀ rm : Reg, ∀ r : Nat, r < 256 →
      encode (.isprime rm r) &&& opMask .isprime = opMatch .isprime := by decide +kernel
  exact all rm rounds hr

end Sys2Proof.Laws.RowMatch
end

