-- ==== Sys2Proof/Tests/Slice0.lean ====
section
/-! SUPPORT. Tests by values of spec/ (each names its vector), and for every obligation that has hypotheses a witness that
meets them all, one per clause at the ends of its range. -/

namespace Sys2Proof.Tests

open Sys2Proof.Machine

/-- An idle engine with `r0`, `r1`, `r2` given. -/
def idleState (L x0 x1 x2 : Nat) : State :=
  { State.resetOf L with regs := #v[x0, x1, x2, 0, 0, 0, 0, 0] }

/-- The state a step or a meaning answers. -/
def after : Result → State
  | .next s => s
  | .fault _ => State.reset
  | .refused _ => State.reset

/-- A command in flight, just accepted. -/
def running (w : Word) (h : InFlight) (s : State) : State :=
  { s with cmdreg := w, done := false, busy := true, hidden := some h }

/-- The idle engine of the vectors with command `i` accepted. -/
def accepted (i : Instr) (s : State) : State :=
  after (exec i { s with cmdreg := encode i })

/-- The answer of the port to a read. -/
def datumAt (addr : Nat) (s : State) : Option Reply :=
  (after (step { s with schedule := [.read .word addr] })).reply

/-! ## WellFormed -/

/-- R94: "A count above 255 has no encoding". -/
theorem test_rounds_above_255_ill_formed : (Instr.isprime 0 256).wellFormed = false := by decide

/-- R94: 255 rounds have one. -/
theorem test_rounds_255_well_formed : (Instr.isprime 7 255).wellFormed = true := by decide

/-- R94: the ill-formed command's word would decode to another command or to none. -/
theorem test_ill_formed_does_not_round_trip : decode (encode (.isprime 0 256)) ≠ .ok (.isprime 0 256) := by decide

/-! ## Decoding: words of section 2 of 95_test_vectors.md -/

/-- V30-1, V30-2. -/
theorem test_decode_modred :
    decode 0x01210000 = .ok (.modred 2 1 0) ∧ decode 0x01770700 = .ok (.modred 7 7 7) := by decide

/-- V30-4, V30-5. -/
theorem test_decode_modadd :
    decode 0x02423000 = .ok (.modadd 4 2 3 0) ∧ decode 0x02644000 = .ok (.modadd 6 4 4 0) := by decide

/-- V30-6, V30-7. -/
theorem test_decode_modsub :
    decode 0x03312000 = .ok (.modsub 3 1 2 0) ∧ decode 0x03645000 = .ok (.modsub 6 4 5 0) := by decide

/-- V30-9, V30-14. -/
theorem test_decode_modmul :
    decode 0x04301700 = .ok (.modmul 3 0 1 7) ∧ decode 0x04111100 = .ok (.modmul 1 1 1 1) := by decide

/-- V30-17, V30-21. -/
theorem test_decode_powmod :
    decode 0x08513000 = .ok (.powmod 5 1 3 0) ∧ decode 0x08777700 = .ok (.powmod 7 7 7 7) := by decide

/-- V30-22, V30-23. -/
theorem test_decode_witness :
    decode 0x10010000 = .ok (.witness 1 0) ∧ decode 0x10070700 = .ok (.witness 7 7) := by decide

/-- V30-26, V30-28. -/
theorem test_decode_isprime :
    decode 0x11000500 = .ok (.isprime 5 0) ∧ decode 0x110007FF = .ok (.isprime 7 255) := by decide

/-- V30-40, V30-41, V30-45 to V30-47. -/
theorem test_decode_unassigned :
    ([0x00000000, 0xFFFFFFFF, 0x05301700, 0x07000000, 0x09412000, 0x0F000000, 0x12000000, 0x80000000].all
      (fun w => (decode w).toOption.isNone)) = true := by decide

/-- V30-48 to V30-57. -/
theorem test_decode_illegal_fields :
    ([0x01211000, 0x01210001, 0x01810000, 0x01290000, 0x01210F00, 0x02312080, 0x0231A000, 0x03F12000, 0x04301701,
      0x04801700].all (fun w => (decode w).toOption.isNone)) = true := by decide

/-- V30-58 to V30-67. -/
theorem test_decode_illegal_fields_more :
    ([0x08412800, 0x084120FF, 0x10110000, 0x10011000, 0x10010001, 0x10080000, 0x11010064, 0x11100064, 0x11001064,
      0x11000864].all (fun w => (decode w).toOption.isNone)) = true := by decide

/-- V30-4, V30-27: assembling and printing. -/
theorem test_assemble :
    assemble "MODADD r4, r2, r3, r0".toList = some 0x02423000 ∧
    assemble "ISPRIME r0, #0x02 ; two rounds".toList = some 0x11000002 ∧
    printWord 0x11000064 = "ISPRIME r0, #100".toList := by decide +kernel

/-- R102: "Register numbers above 7" and "a number above 255" are refused; R105: an illegal word's print. -/
theorem test_assemble_refuses :
    assemble "MODADD r4, r8, r3, r0".toList = none ∧ assemble "ISPRIME r0, #256".toList = none ∧
    assemble "WITNESS r0".toList = none ∧
    printWord 0x05301700 = ".illegal 0x05301700".toList := by decide +kernel

/-! ## Commands: one step of a command in flight, and one acceptance -/

/-- V40-80. -/
theorem test_modred_wide :
    readReg (after (exec (.modred 3 1 0)
      (accepted (.modred 3 1 0) (idleState 2 0xFFFFFFFFFFFFFFC5 0xFFFFFFFFFFFFFFFF 0)))) 3 = 0x3A := by decide

/-- V40-15: the sum `2^32` is not wrapped to 0. -/
theorem test_modadd_no_wrap :
    readReg (after (exec (.modadd 3 1 2 0)
      (accepted (.modadd 3 1 2 0) (idleState 1 0xFFFFFFFF 0xFFFFFFFF 1)))) 3 = 1 := by decide

/-- V40-72: the destination is the modulus register. -/
theorem test_modadd_over_modulus :
    readReg (after (exec (.modadd 0 1 2 0) (accepted (.modadd 0 1 2 0) (idleState 1 23 20 15)))) 0 = 12 := by decide

/-- V40-30: `5 - 9` modulo 23. -/
theorem test_modsub_wraps_up :
    readReg (after (exec (.modsub 3 1 2 0) (accepted (.modsub 3 1 2 0) (idleState 1 23 5 9)))) 3 = 19 := by decide

/-- V40-38: both operands unreduced. -/
theorem test_modsub_unreduced :
    readReg (after (exec (.modsub 3 1 2 0) (accepted (.modsub 3 1 2 0) (idleState 1 23 50 100)))) 3 = 19 := by decide

/-- V40-59. -/
theorem test_modmul_general :
    readReg (after (exec (.modmul 3 1 2 0)
      (accepted (.modmul 3 1 2 0) (idleState 1 0xFFFFFFFB 0x12345678 0x9ABCDEF0)))) 3 = 0x5B31B406 := by decide

/-- V40-71: a zero modulus is fault 2 at acceptance. -/
theorem test_modmul_zero_modulus :
    statusWord (accepted (.modmul 1 1 1 1) (idleState 1 23 0 0)) = 0x00000208 := by decide

/-- V41-41. -/
theorem test_powmod_wide :
    readReg (after (exec (.powmod 3 1 2 0) (accepted (.powmod 3 1 2 0)
      (idleState 2 0xFFFFFFFFFFFFFFC5 0x0123456789ABCDEF 0xFEDCBA9876543210)))) 3 = 0xE5FD58E46915A48B := by
  decide +kernel

/-- V41-8: modulus 1 and exponent 0 give 0. -/
theorem test_powmod_modulus_one :
    readReg (after (exec (.powmod 3 1 2 0)
      (accepted (.powmod 3 1 2 0) { idleState 1 1 5 0 with regs := #v[1, 5, 0, 9, 0, 0, 0, 0] }))) 3 = 0 := by decide

/-- V42-4: reported in round 3 of 4. -/
theorem test_witness_561 :
    statusWord (after (exec (.witness 1 0) (accepted (.witness 1 0) (idleState 1 561 2 0)))) = 0x00000006 := by decide

/-- V42-2: a strong liar. -/
theorem test_witness_liar :
    statusWord (after (exec (.witness 1 0) (accepted (.witness 1 0) (idleState 1 221 174 0)))) = 0x00000002 := by decide

/-- V42-11: the first draw is asked from `[2, 219]`. -/
theorem test_isprime_draw :
    (after (exec (.isprime 0 2) (accepted (.isprime 0 2) (idleState 1 221 0 0)))).draw = some ⟨2, 219⟩ := by decide

/-- V42-13: 0 is not prime, and no fault. -/
theorem test_isprime_zero :
    statusWord (after (exec (.isprime 0 100) (accepted (.isprime 0 100) (idleState 1 0 0 0)))) = 0x00000002 := by decide

/-- V42-2 and V42-1 as ISPRIME meets them in V42-11: the verdicts behind its two trials. -/
theorem test_isprime_trials :
    witness 174 221 = false ∧ witness 137 221 = true ∧ witness 47 221 = false := by decide

/-! ## Host port and faults -/

/-- V20-4: `CAPS` for `W` of 32, 64 and 160. -/
theorem test_caps :
    capsWord (State.resetOf 1) = 0x01080001 ∧ capsWord (State.resetOf 2) = 0x01080002 ∧
    capsWord (State.resetOf 5) = 0x01080005 := by decide

/-- V20-6, V20-7, V20-22: the hole and the end of the window. -/
theorem test_read_holes :
    datumAt 0x0FC (State.resetOf 1) = some ⟨.buserr, some 0⟩ ∧
    datumAt 0x120 (State.resetOf 1) = some ⟨.buserr, some 0⟩ ∧
    datumAt 0x19C (State.resetOf 5) = some ⟨.ok, some 0⟩ ∧
    datumAt 0x1A0 (State.resetOf 5) = some ⟨.buserr, some 0⟩ ∧
    datumAt 0x13C (State.resetOf 2) = some ⟨.ok, some 0⟩ := by decide

/-- V20-12 to V20-14: the bits of a `CTRL` write. -/
theorem test_ctrl_write :
    ctrlWord (after (step { State.reset with schedule := [.write .word 0 0xFFFFFFF8] })) = 0 ∧
    ctrlWord (after (step { State.reset with schedule := [.write .word 0 0xFFFFFFF9] })) = 1 ∧
    ctrlWord (after (step { State.reset with schedule := [.write .word 0 0x00000007] })) = 0 := by decide

/-- V20-21: the other limb keeps its value. -/
theorem test_limb_write :
    readReg (after (step { idleState 2 0 0x0123456789ABCDEF 0 with schedule := [.write .word 0x108 1] })) 1 =
      0x0123456700000001 := by decide

/-- V60-4: a window write while busy. -/
theorem test_write_while_busy :
    statusWord (after (step { accepted (.powmod 3 1 2 0) (idleState 1 497 4 13) with
      schedule := [.write .word 0x104 6] })) = 0x00000408 := by decide

/-- V60-17: `DONE` cleared, `T` kept, fault 1. -/
theorem test_illegal_keeps_t :
    statusWord (after (step { State.reset with done := true, t := true, schedule := [.write .word 8 0] })) =
      0x0000010C := by decide

/-- V42-61: an answer above the bounds. -/
theorem test_answer_out_of_bounds :
    statusWord (after (step { running 0x11000002 ⟨0, 0, 221, .isPrime 1 none⟩ (idleState 1 221 0 0) with
      rwait := true, draw := some ⟨2, 219⟩, schedule := [.answer 220] })) = 0x00000508 := by decide

/-- V49-1 and V49-4. -/
theorem test_encode_text :
    encodeText [0x41] = .ok 0xEB ∧ decodeText 0xEB = [0x41] ∧
    encodeText [0x48, 0x69, 0x20, 0x42, 0x75, 0x63, 0x6B, 0x61, 0x72, 0x6F, 0x6F, 0x73, 0x21] =
      .ok 0x8BD9C5C5D8CBC1C9DFE88AC3E2 := by decide

/-- V49-7, V49-10. -/
theorem test_cipher_values :
    encryptValue 7 ⟨23, 5, 19⟩ 3 = .ok ⟨10, 12⟩ ∧ encryptValue 7 ⟨23, 5, 19⟩ 4 = .ok ⟨4, 21⟩ ∧
    decryptValue ⟨10, 12⟩ ⟨23, 15⟩ = .ok 7 ∧
    genAcceptValue .a 2 23 = false ∧ genAcceptValue .b 2 23 = true ∧ genAcceptValue .b 1 23 = false := by decide

/-- A host before an engine, the other agents' steps given. -/
def hostOf (s : State) (between : List (List Event)) : Session :=
  { engine := s, between := between, draws := [] }

/-- R106 and P1: `WAIT` polls until `BUSY` is clear and keeps the last value. -/
theorem test_wait_polls :
    (hostWait.run.run (hostOf (running 0x02312000 ⟨20, 15, 23, .field⟩ (idleState 1 23 20 15))
      [[], [.pass], [.engine]])).1 = .ok 0x00000002 := by rfl

/-- R82 and V20-20: `STR` of a register of two limbs. -/
theorem test_str_yield :
    ((hostStr 1).run.run (hostOf (idleState 2 0 0x0123456789ABCDEF 0) [])).1 = .ok 0x0123456789ABCDEF := by rfl

/-- R82: a value of `2^W` has no encoding; R229: a fault found by `WAIT` is reported and the engine soft-reset. -/
theorem test_host_refusals :
    ((hostLdr 1 (2 ^ 32)).run.run (hostOf (idleState 1 0 0 0) [])).1 = .error .noEncoding ∧
    (hostWaitChecked.run.run (hostOf { idleState 1 0 4 13 with err := true, errcode := 2 } [])).1 =
      .error .engineFault ∧
    (hostWaitChecked.run.run (hostOf { idleState 1 0 4 13 with err := true, errcode := 2 } [])).2.engine =
      { State.reset with reply := some writeOk } := ⟨rfl, rfl, rfl⟩

/-- R311: a run is judged right after its script's last line, whatever comes later: a command still in flight, and an illegal
word (V60-1) before a reset. -/
theorem test_run_end :
    ({ idleState 1 23 20 15 with schedule := [.write .word 8 0x02312000, .engine] }).unfinished = true ∧
    ({ idleState 1 23 20 15 with schedule := [.write .word 8 0x02312000, .engine] }).good = false ∧
    ({ State.reset with schedule := [.write .word 8 0, .resetAssert] }).bad = true ∧
    ({ State.reset with schedule := [.write .word 8 0, .resetAssert] }).good = false ∧
    ({ State.reset with schedule := [.read .word 4] }).good = true := by decide

/-- R311 for a host session: `SRST` as the last line clears the fault of the line before. -/
theorem test_session_end :
    (hostOf State.reset []).good [.wr 8 0, .srst] = true ∧ (hostOf State.reset []).bad [.wr 8 0] = true := ⟨rfl, rfl⟩

/-! ## Witnesses: encoding and the step -/

theorem witness_DecodeEncodeRoundTrip :
    (Instr.isprime 7 255).wellFormed = true ∧ (Instr.isprime 0 0).wellFormed = true ∧
    (Instr.modred 7 0 7).wellFormed = true ∧ (Instr.witness 0 7).wellFormed = true := by decide

theorem witness_LegalWordIsItsEncoding :
    decode 0x01000000 = .ok (.modred 0 0 0) ∧ decode 0x110007FF = .ok (.isprime 7 255) := by decide

theorem witness_PrintThenAssemble :
    decode 0x11000700 = .ok (.isprime 7 0) ∧ decode 0x08777700 = .ok (.powmod 7 7 7 7) := by decide

theorem witness_StepRunsAcceptedCommand :
    (idleState 1 23 20 15).Idle ∧ (idleState 1 23 20 15).resetHeld = false ∧
    decode 0x02312000 = .ok (.modadd 3 1 2 0) ∧
    ({ idleState 1 23 20 15 with schedule := [.write .word 0x008 0x02312000] }).schedule =
      .write .word 0x008 0x02312000 :: [] := by decide

/-- A MODADD just accepted: a running engine. -/
def runningModadd : State := running 0x02312000 ⟨20, 15, 23, .field⟩ (idleState 1 23 20 15)

theorem witness_StepRunsCommandInFlight :
    runningModadd.Running ∧ runningModadd.resetHeld = false ∧
    decode runningModadd.cmdreg = .ok (.modadd 3 1 2 0) ∧ runningModadd.schedule = [] ∧
    ({ runningModadd with schedule := [.engine] }).schedule = .engine :: [] := by decide

theorem witness_IllegalWordFaults :
    (idleState 1 5 5 5).Idle ∧ (idleState 1 5 5 5).resetHeld = false ∧
    decode 0x01211000 = .error (.nonZeroField .rb) ∧
    ({ idleState 1 5 5 5 with schedule := [.write .word 0x008 0x01211000] }).schedule =
      .write .word 0x008 0x01211000 :: [] := by decide

/-- One witness for the statements of MODRED, MODADD, MODSUB, MODMUL and POWMOD, whose hypotheses are the same: modulus 1 and
the largest modulus. -/
theorem witness_FieldAndPowmodResults :
    (idleState 1 1 5 0).Idle ∧ readReg (idleState 1 1 5 0) 0 ≠ 0 ∧
    (idleState 1 0xFFFFFFFF 1 2).Idle ∧ readReg (idleState 1 0xFFFFFFFF 1 2) 0 ≠ 0 := by decide

theorem witness_ZeroModulusFaults :
    Instr.witness 1 0 ∈ [Instr.modred 3 1 0, .modadd 3 1 2 0, .modsub 3 1 2 0, .modmul 3 1 2 0, .powmod 3 1 2 0,
      .witness 1 0] ∧ (idleState 1 0 5 0).Idle ∧ readReg (idleState 1 0 5 0) 0 = 0 := by decide

theorem witness_FieldCommandsUseLatchedOperands :
    runningModadd.Running ∧ runningModadd.hidden = some ⟨20, 15, 23, .field⟩ := by decide

theorem witness_FieldArithmeticLaws : (1 : Nat) ≤ 1 := by decide

theorem witness_PowmodPassKeepsTheProduct : (PowWork.mk 445 151 0).d = 0 := by decide

theorem witness_PowmodRunsBitlenPasses :
    0 < bitlen (PowWork.mk 1 4 13).d ∧ bitlen (PowWork.mk 1 4 13).d - 1 < bitlen (PowWork.mk 1 4 13).d ∧
    (PowWork.mk 1 4 0xFFFFFFFF).d < 2 ^ 32 := by decide

/-! ## Witnesses: WITNESS and ISPRIME -/

theorem witness_WitnessResult :
    (idleState 1 221 174 0).Idle ∧ 2 ≤ readReg (idleState 1 221 174 0) 0 ∧ 55 % 2 = 1 ∧
    readReg (idleState 1 221 174 0) 0 - 1 = 55 * 2 ^ 2 ∧
    (idleState 1 2 3 0).Idle ∧ 2 ≤ readReg (idleState 1 2 3 0) 0 ∧ 1 % 2 = 1 ∧
    readReg (idleState 1 2 3 0) 0 - 1 = 1 * 2 ^ 0 := by decide

/-- An idle engine to whose `CMD` a word is written next, and the engine's step after it. -/
def commanded (w : Word) (s : State) : State :=
  { s with schedule := [.write .word 0x008 w, .engine] }

/-- The write of a word to an idle engine's `CMD`, nothing after it. -/
def commandedLast (w : Word) (s : State) : State :=
  { s with schedule := [.write .word 0x008 w] }

/-- The refusals of 0 and 1 with nothing after the write, and the smallest accepted number with the engine's step. -/
theorem witness_WitnessOperandChecks :
    decode 0x10010000 = .ok (.witness 1 0) ∧
    (commandedLast 0x10010000 (idleState 1 0 5 0)).schedule = .write .word 0x008 0x10010000 :: [] ∧
    (commandedLast 0x10010000 (idleState 1 0 5 0)).Idle ∧
    (commandedLast 0x10010000 (idleState 1 0 5 0)).resetHeld = false ∧
    readReg (commandedLast 0x10010000 (idleState 1 0 5 0)) 0 = 0 ∧
    (commandedLast 0x10010000 (idleState 1 1 5 0)).Idle ∧
    (commandedLast 0x10010000 (idleState 1 1 5 0)).resetHeld = false ∧
    readReg (commandedLast 0x10010000 (idleState 1 1 5 0)) 0 = 1 ∧
    (commanded 0x10010000 (idleState 1 2 5 0)).Idle ∧ (commanded 0x10010000 (idleState 1 2 5 0)).resetHeld = false ∧
    (commanded 0x10010000 (idleState 1 2 5 0)).schedule = .write .word 0x008 0x10010000 :: .engine :: [] ∧
    2 ≤ readReg (commanded 0x10010000 (idleState 1 2 5 0)) 0 := by decide

/-- The immediate decisions of `n = 0, 1, 4` (not prime) and `n = 2, 3` (prime), and an idle engine with an `n` that has none. -/
theorem witness_IsprimeImmediateDecisions :
    (idleState 1 221 0 0).Idle ∧ ∀ nb ∈ [(0, false), (1, false), (4, false), (2, true), (3, true)],
      (idleState 1 nb.1 0 0).Idle ∧
      (((readReg (idleState 1 nb.1 0 0) 0 < 2 ∨
          readReg (idleState 1 nb.1 0 0) 0 % 2 = 0 ∧ readReg (idleState 1 nb.1 0 0) 0 ≠ 2) ∧ nb.2 = false) ∨
        ((readReg (idleState 1 nb.1 0 0) 0 = 2 ∨ readReg (idleState 1 nb.1 0 0) 0 = 3) ∧ nb.2 = true)) := by decide

theorem witness_IsprimeZeroRounds :
    decode 0x11000000 = .ok (.isprime 0 0) ∧ (commanded 0x11000000 (idleState 1 5 0 0)).Idle ∧
    (commanded 0x11000000 (idleState 1 5 0 0)).resetHeld = false ∧
    (commanded 0x11000000 (idleState 1 5 0 0)).schedule = .write .word 0x008 0x11000000 :: .engine :: [] ∧
    5 ≤ readReg (commanded 0x11000000 (idleState 1 5 0 0)) 0 ∧
    readReg (commanded 0x11000000 (idleState 1 5 0 0)) 0 % 2 = 1 := by decide

/-- An ISPRIME with one round on 13, just accepted. -/
def runningIsprime : State := running 0x11000001 ⟨0, 0, 13, .isPrime 0 none⟩ (idleState 1 13 0 0)

theorem witness_IsprimeRequestsDraw :
    runningIsprime.Running ∧ runningIsprime.hidden = some ⟨0, 0, 13, .isPrime 0 none⟩ ∧ 5 ≤ 13 ∧ 13 % 2 = 1 ∧
    0 < 1 := by decide

/-- An idle, a waiting and a faulted engine, an engine event, a pass or nothing to come. -/
theorem witness_EngineHoldsWhenNotRunning :
    ∀ s ∈ [idleState 1 1 2 3, { running 0x11000001 ⟨0, 0, 13, .isPrime 1 none⟩ (idleState 1 13 0 0) with
        rwait := true, draw := some ⟨2, 11⟩ }, { idleState 1 0 4 13 with err := true, errcode := 2 }],
      (s.Idle ∨ s.Waiting ∨ s.err = true) ∧ s.resetHeld = false ∧ s.schedule = [] ∧
      ({ s with schedule := [.engine] }).schedule = .engine :: [] ∧
      ({ s with schedule := [.pass] }).schedule = .pass :: [] := by
  simp [idleState, running, State.resetOf]

/-- An ISPRIME on 221 in its first trial, with witness `a`. -/
def inTrial (a : Nat) : State :=
  running 0x11000002 ⟨0, 0, 221, .isPrime 1 (some ⟨a, .halving 220 0⟩)⟩ (idleState 1 221 0 0)

/-- Both verdicts of a trial (V42-1, V42-2), and `rounds` of 1 and 2 for "was the last" and "trials are left". -/
theorem witness_IsprimeEndsTrial :
    (inTrial 137).Running ∧ WitnessFits 137 221 (.halving 220 0) ∧ witness 137 221 = true ∧
    (inTrial 174).Running ∧ WitnessFits 174 221 (.halving 220 0) ∧ ¬ witness 174 221 = true ∧ 1 < 2 ∧ ¬ 1 < 1 :=
  ⟨by decide, rfl, by decide, by decide, rfl, by decide, by decide, by decide⟩

/-- An ISPRIME on 13 that waits for the answer to its draw. -/
def waitingIsprime : State :=
  { running 0x11000001 ⟨0, 0, 13, .isPrime 1 none⟩ (idleState 1 13 0 0) with rwait := true, draw := some ⟨2, 11⟩ }

/-- Answers at both ends of the bounds. -/
theorem witness_AnswerInBoundsStartsTrial :
    waitingIsprime.Waiting ∧ waitingIsprime.resetHeld = false ∧ waitingIsprime.draw = some ⟨2, 11⟩ ∧
    waitingIsprime.hidden = some ⟨0, 0, 13, .isPrime 1 none⟩ ∧
    ({ waitingIsprime with schedule := [.answer 2] }).schedule = .answer 2 :: [] ∧
    2 ≤ 2 ∧ 2 ≤ 11 ∧ 2 ≤ 11 ∧ 11 ≤ 11 := by decide

/-- Answers next to both ends of the bounds. -/
theorem witness_AnswerOutOfBoundsFaults :
    waitingIsprime.Waiting ∧ waitingIsprime.resetHeld = false ∧ waitingIsprime.draw = some ⟨2, 11⟩ ∧
    waitingIsprime.hidden = some ⟨0, 0, 13, .isPrime 1 none⟩ ∧
    ({ waitingIsprime with schedule := [.answer 12] }).schedule = .answer 12 :: [] ∧
    (1 < 2 ∨ 11 < 1) ∧ (12 < 2 ∨ 11 < 12) := by decide

theorem witness_WitnessNeverAccusesPrime :
    (idleState 1 7 3 0).Idle ∧ Nat.Prime (readReg (idleState 1 7 3 0) 0) ∧
    ¬ readReg (idleState 1 7 3 0) 0 ∣ readReg (idleState 1 7 3 0) 1 :=
  ⟨by decide, by show Nat.Prime 7; norm_num, by decide⟩

/-- The flag invariants in the running state. -/
theorem witness_flags_running : runningIsprime.FlagInv where
  err_busy := by decide
  err_rwait := by decide
  err_done := by decide
  rwait_busy := by decide
  busy_done := by decide
  errcode_zero := by decide
  errcode_range := by decide

/-- The same engine with another ISPRIME word in `CMDREG` and events to come. -/
def runningWith (w : Word) (events : List Event) : State :=
  { runningIsprime with cmdreg := w, schedule := events }

/-- The invariant in the running state: the premise of the statements about a command in flight. -/
theorem witness_Inv_running (w : Word) (k : Nat) (events : List Event) (hw : decode w = .ok (.isprime 0 k)) :
    (runningWith w events).Inv where
  limbs_pos := Nat.le_refl 1
  limbs_le := by show 1 ≤ 65535; decide
  flags :=
    ⟨witness_flags_running.err_busy, witness_flags_running.err_rwait, witness_flags_running.err_done,
      witness_flags_running.rwait_busy, witness_flags_running.busy_done, witness_flags_running.errcode_zero,
      witness_flags_running.errcode_range⟩
  regs_lt := by show ∀ r, readReg runningIsprime r < 2 ^ 32; decide
  busy_hidden := rfl
  rwait_draw := rfl
  operands_lt := by
    intro h hh
    cases hh
    show 0 < 2 ^ 32 ∧ 0 < 2 ^ 32 ∧ 13 < 2 ^ 32
    decide
  in_flight := by
    intro h hh
    cases hh
    exact ⟨_, hw, 0, none, rfl, Nat.zero_le k, by decide, by intro tr htr; cases htr⟩
  draw_fits := by intro b h hb; cases hb
  drawless := by
    intro h k hh hk _
    cases hh
    cases hk
    rfl
  held_reset := by intro h; cases h

/-- The invariant in the waiting state, where the next answer decides. -/
theorem witness_Inv_waiting (events : List Event) : ({ waitingIsprime with schedule := events }).Inv where
  limbs_pos := Nat.le_refl 1
  limbs_le := by show 1 ≤ 65535; decide
  flags :=
    ⟨(by decide : waitingIsprime.err = true → waitingIsprime.busy = false),
      (by decide : waitingIsprime.err = true → waitingIsprime.rwait = false),
      (by decide : waitingIsprime.err = true → waitingIsprime.done = false),
      (by decide : waitingIsprime.rwait = true → waitingIsprime.busy = true),
      (by decide : waitingIsprime.busy = true → waitingIsprime.done = false),
      (by decide : waitingIsprime.err = false → waitingIsprime.errcode = 0),
      (by decide : waitingIsprime.err = true →
        1 ≤ waitingIsprime.errcode.toNat ∧ waitingIsprime.errcode.toNat ≤ 5)⟩
  regs_lt := by show ∀ r, readReg waitingIsprime r < 2 ^ 32; decide
  busy_hidden := rfl
  rwait_draw := rfl
  operands_lt := by
    intro h hh
    cases hh
    show 0 < 2 ^ 32 ∧ 0 < 2 ^ 32 ∧ 13 < 2 ^ 32
    decide
  in_flight := by
    intro h hh
    cases hh
    exact ⟨.isprime 0 1, (by decide : decode 0x11000001 = .ok (.isprime 0 1)), 1, none, rfl, Nat.le_refl 1,
      by decide, by intro tr htr; cases htr⟩
  draw_fits := by
    intro b h hb hh
    cases hb
    cases hh
    exact ⟨rfl, 1, by decide, rfl⟩
  drawless := by intro h k hh hk hd; cases hd
  held_reset := by intro h; cases h

theorem witness_IsprimeNeverRejectsPrime :
    (runningWith 0x11000000 []).Inv ∧ (runningWith 0x11000000 []).hidden = some ⟨0, 0, 13, .isPrime 0 none⟩ ∧
    decode (runningWith 0x11000000 []).cmdreg = .ok (.isprime 0 0) ∧ Nat.Prime 13 ∧
    ∃ t, step (runningWith 0x11000000 []) = .next t ∧ t.done = true :=
  ⟨witness_Inv_running _ 0 _ (by decide), by decide, by decide, by norm_num, _, rfl, by decide⟩

theorem witness_IsprimeEndsAfterItsDraws :
    (runningWith 0x11000001 [.engine, .answer 2, .engine]).Inv ∧
    (runningWith 0x11000001 [.engine, .answer 2, .engine]).Running ∧
    (runningWith 0x11000001 [.engine, .answer 2, .engine]).resetHeld = false ∧
    decode (runningWith 0x11000001 [.engine, .answer 2, .engine]).cmdreg = .ok (.isprime 0 1) ∧ [2].length = 1 ∧
    (runningWith 0x11000001 [.engine, .answer 2, .engine]).schedule =
      .engine :: [2].flatMap (fun v => [.answer v, .engine]) :=
  ⟨witness_Inv_running _ 1 _ (by decide), by decide, by decide, by decide, by decide, by decide⟩

/-! ## Witnesses: frames and whole-machine rules -/

theorem witness_CommandFrame :
    (∃ t, exec (.modadd 3 1 2 0) runningModadd = .next t ∧ instrDest (.modadd 3 1 2 0) ≠ some 4 ∧
      instrTests (.modadd 3 1 2 0) = false) ∧
    (∃ t, exec (.witness 1 0) (idleState 1 221 174 0) = .next t ∧ instrDest (.witness 1 0) ≠ some 0) :=
  ⟨⟨_, rfl, by decide, by decide⟩, ⟨_, rfl, by decide⟩⟩

/-- A step that changes a register. -/
def StepChangesReg (s : State) (r : Reg) : Prop :=
  ∃ t, step s = .next t ∧ readReg t r ≠ readReg s r

/-- A step that changes `T`. -/
def StepChangesT (s : State) : Prop :=
  ∃ t, step s = .next t ∧ t.t ≠ s.t

/-- A register changed by each of its four writers: hardware reset, soft reset, window write, completion. -/
theorem witness_RegisterWriters :
    StepChangesReg { idleState 1 23 20 15 with schedule := [.resetAssert] } 0 ∧
    StepChangesReg { idleState 1 23 20 15 with schedule := [.write .word 0 2] } 1 ∧
    StepChangesReg { idleState 1 23 20 15 with schedule := [.write .word 0x11C 5] } 7 ∧
    StepChangesReg runningModadd 3 :=
  ⟨⟨_, rfl, by decide⟩, ⟨_, rfl, by decide⟩, ⟨_, rfl, by decide⟩, ⟨_, rfl, by decide⟩⟩

/-- `T` changed by each of its writers. -/
theorem witness_ResultFlagWriters :
    StepChangesT { idleState 1 221 137 0 with t := true, schedule := [.resetAssert] } ∧
    StepChangesT { idleState 1 221 137 0 with t := true, schedule := [.write .word 0 2] } ∧
    StepChangesT (running 0x10010000 ⟨137, 0, 221, .witness (.halving 220 0)⟩ (idleState 1 221 137 0)) :=
  ⟨⟨_, rfl, by decide⟩, ⟨_, rfl, by decide⟩, ⟨_, rfl, by decide⟩⟩

/-- A faulted engine. -/
def faultedState : State := { idleState 1 0 4 13 with err := true, errcode := 2 }

theorem witness_FaultKeptUntilReset :
    faultedState.err = true ∧
    (∃ t, step { faultedState with schedule := [.write .word 0x008 0] } = .next t) ∧
    (∃ t, step { faultedState with schedule := [.write .word 0x000 2] } = .next t) ∧
    (∃ t, step { faultedState with schedule := [.resetAssert] } = .next t) :=
  ⟨by decide, ⟨_, rfl⟩, ⟨_, rfl⟩, ⟨_, rfl⟩⟩

theorem witness_OnlyNamedRegistersMatter :
    (idleState 1 23 20 15).Idle ∧ (idleState 1 23 20 16).Idle ∧
    ∀ r, r ∈ instrSources (.modred 3 1 0) → readReg (idleState 1 23 20 15) r = readReg (idleState 1 23 20 16) r := by
  decide

theorem witness_PassesAreInvisible :
    (runningWith 0x11000001 [.pass]).Inv ∧ (runningWith 0x11000001 [.pass]).Running ∧
    decode (runningWith 0x11000001 [.pass]).cmdreg = .ok (.isprime 0 1) ∧
    (runningWith 0x11000001 [.pass]).schedule = .pass :: [] :=
  ⟨witness_Inv_running _ 1 _ (by decide), by decide, by decide, by decide⟩

theorem witness_StepKeepsFlagInvariants :
    runningIsprime.FlagInv ∧ ∃ t, step runningIsprime = .next t :=
  ⟨witness_flags_running, _, rfl⟩

theorem witness_StepKeepsMachineInvariant :
    ({ waitingIsprime with schedule := [.answer 2] }).Inv ∧
    (∃ t, step { waitingIsprime with schedule := [.answer 2] } = .next t) ∧
    (runningWith 0x11000001 []).Inv ∧ ∃ t, step (runningWith 0x11000001 []) = .next t :=
  ⟨witness_Inv_waiting _, ⟨_, rfl⟩, witness_Inv_running _ 1 _ (by decide), _, rfl⟩

/-- The smallest and the largest instance. -/
theorem witness_ResetMeetsMachineInvariant : 1 ≤ 1 ∧ 1 ≤ 65535 ∧ 65535 ≤ 65535 := by decide

theorem witness_StepNeverStops : (runningWith 0x11000001 [.engine]).Inv :=
  witness_Inv_running _ 1 _ (by decide)

/-! ## Witnesses: host port -/

/-- Each clause of the read statement at the ends of its range, for `L = 2`: the four registers, the first and the last limb,
another width, a misaligned address, both ends of the hole, the first address past the window. -/
theorem witness_ReadAnswers :
    (idleState 2 1 2 3).resetHeld = false ∧
    ({ idleState 2 1 2 3 with schedule := [.read .word 0x13C] }).schedule = .read .word 0x13C :: [] ∧
    (0 < (idleState 2 1 2 3).limbs ∧ 0x100 = 0x100 + 4 * ((idleState 2 1 2 3).limbs * (0 : Reg) + 0)) ∧
    (1 < (idleState 2 1 2 3).limbs ∧ 0x13C = 0x100 + 4 * ((idleState 2 1 2 3).limbs * (7 : Reg) + 1)) ∧
    AccessWidth.half ≠ .word ∧ 0x102 % 4 ≠ 0 ∧ (0x010 ≤ 0x010 ∧ 0x010 < 0x100) ∧ (0x010 ≤ 0x0FF ∧ 0x0FF < 0x100) ∧
    0x100 + 32 * (idleState 2 1 2 3).limbs ≤ 0x140 := by decide

theorem witness_CapsWordValue : (State.resetOf 65535).limbs ≤ 65535 ∧ (State.resetOf 1).limbs ≤ 65535 := by decide

theorem witness_WindowWriteStoresLimb :
    (idleState 2 1 2 3).Idle ∧ (idleState 2 1 2 3).resetHeld = false ∧ 1 < (idleState 2 1 2 3).limbs ∧
    ({ idleState 2 1 2 3 with schedule := [.write .word 0x13C 5] }).schedule =
      .write .word (0x100 + 4 * ((idleState 2 1 2 3).limbs * (7 : Reg) + 1)) 5 :: [] ∧ 0 ≠ 1 ∧ (6 : Reg) ≠ 7 := by
  decide

theorem witness_RegisterIsSumOfLimbs :
    readReg (idleState 2 0 0xFFFFFFFFFFFFFFFF 0) 1 < 2 ^ (32 * (idleState 2 0 0xFFFFFFFFFFFFFFFF 0).limbs) := by decide

theorem witness_LdrLoadsTheValue :
    (idleState 2 1 2 3).Idle ∧ (idleState 2 1 2 3).resetHeld = false ∧ 1 ≤ (idleState 2 1 2 3).limbs ∧
    readReg (idleState 2 1 2 3) 1 < 2 ^ (32 * (idleState 2 1 2 3).limbs) ∧
    scriptLdr 2 1 0x0123456789ABCDEF = some [.write .word 0x108 0x89ABCDEF, .write .word 0x10C 0x01234567] := by decide

/-- `CMD`, and the first and the last limb of the window for `L = 2`. -/
theorem witness_WriteWhileBusyFaults :
    runningModadd.busy = true ∧ runningModadd.err = false ∧ runningModadd.resetHeld = false ∧ 0 < runningModadd.limbs ∧
    (0x008 = 0x008) ∧ 0x11C = 0x100 + 4 * (runningModadd.limbs * (7 : Reg) + 0) ∧
    ({ runningModadd with schedule := [.write .word 0x11C 6] }).schedule = .write .word 0x11C 6 :: [] := by decide

theorem witness_WriteWhileFaultedDropped :
    faultedState.err = true ∧ faultedState.resetHeld = false ∧ 0 < faultedState.limbs ∧
    0x100 = 0x100 + 4 * (faultedState.limbs * (0 : Reg) + 0) ∧
    ({ faultedState with schedule := [.write .word 0x100 5] }).schedule = .write .word 0x100 5 :: [] := by decide

theorem witness_BadWriteChangesNothing :
    (idleState 1 1 2 3).resetHeld = false ∧ AccessWidth.byte ≠ .word ∧ 0x102 % 4 ≠ 0 ∧
    (0x010 ≤ 0x010 ∧ 0x010 < 0x100) ∧ (0x010 ≤ 0x0FF ∧ 0x0FF < 0x100) ∧ 0x100 + 32 * (idleState 1 1 2 3).limbs ≤ 0x120 ∧
    ({ idleState 1 1 2 3 with schedule := [.write .word 0x120 1] }).schedule = .write .word 0x120 1 :: [] := by decide

theorem witness_ControlWriteSetsEnable :
    (idleState 1 1 2 3).resetHeld = false ∧ (0xFFFFFFF9 : Word).getLsbD 1 = false ∧
    ({ idleState 1 1 2 3 with schedule := [.write .word 0x000 0xFFFFFFF9] }).schedule =
      .write .word 0x000 0xFFFFFFF9 :: [] := by decide

theorem witness_SoftResetResetsEverything :
    faultedState.resetHeld = false ∧ (0x00000007 : Word).getLsbD 1 = true ∧
    ({ faultedState with schedule := [.write .word 0x000 7] }).schedule = .write .word 0x000 7 :: [] := by decide

theorem witness_HardwareResetHolds :
    ({ runningModadd with schedule := [.resetAssert] }).schedule = .resetAssert :: [] ∧
    (assertReset { runningModadd with schedule := [.read .half 0x001] }).resetHeld = true ∧
    (assertReset { runningModadd with schedule := [.read .half 0x001] }).schedule = .read .half 0x001 :: [] ∧
    (assertReset { runningModadd with schedule := [.write .word 0x008 0] }).schedule = .write .word 0x008 0 :: [] ∧
    (assertReset { runningModadd with schedule := [.engine] }).schedule = .engine :: [] ∧
    (assertReset { runningModadd with schedule := [.pass] }).schedule = .pass :: [] ∧
    (assertReset { runningModadd with schedule := [.answer 3] }).schedule = .answer 3 :: [] ∧
    (assertReset { runningModadd with schedule := [.resetRelease] }).schedule = .resetRelease :: [] := by decide

theorem witness_LateAnswerIgnored :
    (idleState 1 1 2 3).rwait = false ∧
    ({ idleState 1 1 2 3 with schedule := [.answer 3] }).schedule = .answer 3 :: [] := by decide

theorem witness_FetchWordRunsNext : decodeTableWord 32 0x02312000 = some (.modadd 3 1 2 0) := by decide

/-! ## Witnesses: host software -/

theorem witness_TextCodecRoundTrip :
    (∀ c, c ∈ [0x41, 0xFF, 0x00] → c < 256) ∧ [0x41, 0xFF, 0x00].getLast? ≠ some 0xAA ∧ 256 ∈ [256] ∧ 256 ≤ 256 := by
  decide

theorem witness_DecryptUndoesEncrypt :
    Nat.Prime 23 ∧ ¬ 23 ∣ 5 ∧ 15 ≤ 23 - 1 ∧ 22 ≤ 23 - 1 ∧ 22 < 23 ∧ 23 ≤ 23 := by
  norm_num

/-- Each clause: `STR` of the widest value, `LDR` of the first value too wide, `CMD` of the first count too large, a `WAIT` that
ends. -/
theorem witness_HostLinesGiveTheirValues :
    (hostOf (idleState 1 0 0xFFFFFFFF 0) []).between = [] ∧
    (hostOf (idleState 1 0 0xFFFFFFFF 0) []).engine.resetHeld = false ∧
    readReg (hostOf (idleState 1 0 0xFFFFFFFF 0) []).engine 1 <
      2 ^ (32 * (hostOf (idleState 1 0 0xFFFFFFFF 0) []).engine.limbs) ∧
    2 ^ (32 * (hostOf (idleState 1 0 0xFFFFFFFF 0) []).engine.limbs) ≤ 2 ^ 32 ∧
    (Instr.isprime 0 256).wellFormed = false ∧
    ∃ w h', hostWait.run.run (hostOf (idleState 1 0 0xFFFFFFFF 0) []) = (.ok w, h') :=
  ⟨rfl, rfl, by decide, by decide, rfl, _, _, rfl⟩

end Sys2Proof.Tests
end

section
/-! SUPPORT. Every step keeps the invariant of the machine: the bounds of what is computed (R9, R121), the loops on their way to
their results (R141, R162), then one preservation lemma per operation, per command and per event. -/

namespace Sys2Proof.Machine

/-! ## Values fit their registers (R9, R66) -/

theorem setLimb_lt {L j v : Nat} (d : Word) (hj : j < L) (hv : v < 2 ^ (32 * L)) :
    setLimb j d v < 2 ^ (32 * L) := by
  obtain ⟨k, rfl⟩ := Nat.exists_eq_add_of_le (Nat.succ_le_of_lt hj)
  have hsplit : 2 ^ (32 * (j + 1 + k)) = 2 ^ (32 * k) * 2 ^ (32 * (j + 1)) := by
    rw [← Nat.pow_add, ← Nat.mul_add, Nat.add_comm k]
  have hlimb : 2 ^ (32 * (j + 1)) = 2 ^ 32 * 2 ^ (32 * j) := by rw [← Nat.pow_add, Nat.mul_add_one, Nat.add_comm]
  have hhigh : v / 2 ^ (32 * (j + 1)) < 2 ^ (32 * k) := by
    rwa [Nat.div_lt_iff_lt_mul (Nat.two_pow_pos _), ← hsplit]
  have hrest : v % 2 ^ (32 * j) < 2 ^ (32 * j) := Nat.mod_lt _ (Nat.two_pow_pos _)
  have hlow : 2 ^ (32 * j) * d.toNat + v % 2 ^ (32 * j) < 2 ^ (32 * (j + 1)) := by
    rw [hlimb]
    exact Nat.mul_add_lt_mul_of_lt_of_lt d.isLt hrest
  calc setLimb j d v
      = 2 ^ (32 * (j + 1)) * (v / 2 ^ (32 * (j + 1))) + (2 ^ (32 * j) * d.toNat + v % 2 ^ (32 * j)) := by
        rw [setLimb, Nat.add_assoc, Nat.mul_comm, Nat.mul_comm d.toNat]
    _ < 2 ^ (32 * k) * 2 ^ (32 * (j + 1)) := Nat.mul_add_lt_mul_of_lt_of_lt hhigh hlow
    _ = 2 ^ (32 * (j + 1 + k)) := hsplit.symm

theorem readReg_writeReg_lt {s : State} {v bound : Nat} (hs : ∀ r, readReg s r < bound) (hv : v < bound) (rd r : Reg) :
    readReg (writeReg rd v s) r < bound := by
  by_cases h : r = rd
  · subst h; rwa [readReg_writeReg_same]
  · rw [readReg_writeReg_other _ _ _ _ h]; exact hs r

theorem windowEntry_limb_lt {L k j : Nat} {i : Reg} (h : windowEntry L k = some (.limb i j)) : j < L := by
  unfold windowEntry at h
  split at h
  case isTrue hk =>
    cases h
    exact Nat.mod_lt _ (Nat.pos_of_mul_pos_right (Nat.zero_lt_of_lt hk))
  case isFalse => cases h

/-- Only the register window has limbs, `L` of them for each register (R64, R66). -/
theorem portEntry_limb_lt {width : AccessWidth} {L addr j : Nat} {i : Reg}
    (h : portEntry width L addr = some (.limb i j)) : j < L := by
  cases width with
  | word =>
    dsimp only [portEntry, mapEntry] at h
    split_ifs at h
    · cases h
    · cases h
    · cases h
    · cases h
    · exact windowEntry_limb_lt h
  | byte => cases h
  | half => cases h
  | double => cases h

/-! ## The operand checks (R128, R163) -/

theorem checkModulus_eq_none_iff {n : Nat} : checkModulus n = none ↔ 1 ≤ n := by
  unfold checkModulus
  split <;> simp <;> omega

theorem checkWitness_eq_none_iff {n : Nat} : checkWitness n = none ↔ 2 ≤ n := by
  unfold checkWitness
  split
  · simp; omega
  · split <;> simp <;> omega

/-! ## The POWMOD loop (R141, R143) -/

theorem bitlen_eq_succ {d : Nat} (h : d ≠ 0) : bitlen d = bitlen (d / 2) + 1 := by
  unfold bitlen
  rw [Nat.log2_def]
  by_cases h2 : 2 ≤ d
  · have : d / 2 ≠ 0 := by omega
    simp [h, h2, this]
  · have : d / 2 = 0 := by omega
    simp [h, h2, this]

theorem powPass_of_zero {n : Nat} {w : PowWork} (h : w.d = 0) : powPass n w = w := if_pos h

theorem powPass_d {n : Nat} {w : PowWork} (h : w.d ≠ 0) : (powPass n w).d = w.d / 2 := by
  simp [powPass, h]

/-- A pass done early is a pass less to do: the value the loop ends with stays (R143). -/
theorem powFinish_powPass (n : Nat) (w : PowWork) : powFinish n (powPass n w) = powFinish n w := by
  by_cases h : w.d = 0
  · rw [powPass_of_zero h]
  · rw [powFinish, powFinish, powPass_d h, bitlen_eq_succ h, powPasses]

theorem powFinish_of_zero {n : Nat} {w : PowWork} (h : w.d = 0) : powFinish n w = w.v := by
  simp [powFinish, h, bitlen, powPasses]

theorem powPass_residues {n : Nat} {w : PowWork} (hv : w.v < n) (hp : w.p < n) :
    (powPass n w).v < n ∧ (powPass n w).p < n := by
  have hn : 0 < n := Nat.zero_lt_of_lt hv
  unfold powPass
  split
  · exact ⟨hv, hp⟩
  · refine ⟨?_, Nat.mod_lt _ hn⟩
    dsimp only
    split
    · exact Nat.mod_lt _ hn
    · exact hv

theorem powPasses_v_lt {n : Nat} (k : Nat) {w : PowWork} (hv : w.v < n) (hp : w.p < n) : (powPasses n k w).v < n := by
  induction k generalizing w with
  | zero => exact hv
  | succ k ih => exact ih (powPass_residues hv hp).1 (powPass_residues hv hp).2

theorem PowFits.value_lt {W n value : Nat} {w : PowWork} (h : PowFits W n value w) : value < n :=
  h.finishes ▸ powPasses_v_lt _ h.v_lt h.p_lt

theorem powStart_fits {W b e n : Nat} (hn : 1 ≤ n) (he : e < 2 ^ W) : PowFits W n (powmod b e n) (powStart b e n) :=
  ⟨Nat.mod_lt _ hn, Nat.mod_lt _ hn, he, rfl⟩

theorem PowFits.pass {W n value : Nat} {w : PowWork} (h : PowFits W n value w) : PowFits W n value (powPass n w) where
  v_lt := (powPass_residues h.v_lt h.p_lt).1
  p_lt := (powPass_residues h.v_lt h.p_lt).2
  d_lt := by
    by_cases hd : w.d = 0
    · rw [powPass_of_zero hd]; exact h.d_lt
    · rw [powPass_d hd]; exact (Nat.div_le_self _ _).trans_lt h.d_lt
  finishes := (powFinish_powPass n w).trans h.finishes

/-! ## The WITNESS computation (R162, R164) -/

theorem powmod_exponent_zero (a n : Nat) : powmod a 0 n = 1 % n := powFinish_of_zero rfl

/-- From `x = 1` every round squares 1 to 1 and finds no non-trivial root. -/
theorem squareLoop_one {n : Nat} (hn : 2 ≤ n) (k : Nat) : squareLoop n k 1 = false := by
  induction k with
  | zero => rfl
  | succ k ih => simp [squareLoop, nontrivialRoot, Nat.mod_eq_of_lt hn, ih]

theorem halve_of_odd {u : Nat} (h : u % 2 ≠ 0) (k t : Nat) : halve k u t = (u, t) := by
  cases k <;> simp [halve, h]

/-- Halving `u = 0`, which no run does, only adds rounds that find nothing. -/
theorem witnessFinish_halving_zero {n : Nat} (hn : 2 ≤ n) (a t : Nat) : witnessFinish a n (.halving 0 t) = false := by
  simp [witnessFinish, bitlen, halve, powmod_exponent_zero, Nat.mod_eq_of_lt hn, squareLoop_one hn]

theorem witnessFinish_halving_even {n u : Nat} (hn : 2 ≤ n) (hu : u % 2 = 0) (a t : Nat) :
    witnessFinish a n (.halving (u / 2) (t + 1)) = witnessFinish a n (.halving u t) := by
  by_cases h0 : u = 0
  · subst h0
    rw [Nat.zero_div, witnessFinish_halving_zero hn, witnessFinish_halving_zero hn]
  · simp [witnessFinish, bitlen_eq_succ h0, halve, hu]

/-- A pass done early leaves the verdict as it is. -/
theorem witnessFinish_witnessPass {n : Nat} (hn : 2 ≤ n) (a : Nat) (w : WitnessWork) :
    witnessFinish a n (witnessPass a n w) = witnessFinish a n w := by
  cases w with
  | halving u t =>
    by_cases hu : u % 2 = 0
    · simp only [witnessPass, hu, if_true]; exact witnessFinish_halving_even hn hu a t
    · simp [witnessPass, witnessFinish, hu, halve_of_odd, powmod]
  | exponentiating t w =>
    by_cases hd : w.d = 0
    · simp [witnessPass, witnessFinish, hd, powFinish_of_zero]
    · simp [witnessPass, witnessFinish, hd, powFinish_powPass]
  | squaring t i x =>
    by_cases hi : i < t
    · have hleft : t - i = t - (i + 1) + 1 := by omega
      simp [witnessPass, witnessFinish, hi, hleft, squareLoop]
    · have hleft : t - i = 0 := by omega
      simp [witnessPass, witnessFinish, hi, hleft, squareLoop]
  | comparing t i x y => by_cases hr : nontrivialRoot n x y <;> simp [witnessPass, witnessFinish, hr]
  | verdict c => rfl

theorem WitnessFits.pass {a n : Nat} {w : WitnessWork} (hn : 2 ≤ n) (h : WitnessFits a n w) :
    WitnessFits a n (witnessPass a n w) :=
  (witnessFinish_witnessPass hn a w).trans h

/-- A trial is for a number with room for a witness (R170). -/
theorem TrialFits.two_le {n : Nat} {tr : Trial} (h : TrialFits n tr) : 2 ≤ n :=
  (h.lo_le.trans h.le_hi).trans (Nat.sub_le _ _)

/-! ## The hidden state on its way (R42) -/

/-- A pass keeps what the command in flight has on its way. -/
theorem HiddenFits.pass {W : Nat} {i : Instr} {f : InFlight} (h : HiddenFits W i f) : HiddenFits W i (passInFlight f) := by
  obtain ⟨a, b, n, work⟩ := f
  cases i with
  | modred => obtain ⟨hn, rfl⟩ := h; exact ⟨hn, rfl⟩
  | modadd => obtain ⟨hn, rfl⟩ := h; exact ⟨hn, rfl⟩
  | modsub => obtain ⟨hn, rfl⟩ := h; exact ⟨hn, rfl⟩
  | modmul => obtain ⟨hn, rfl⟩ := h; exact ⟨hn, rfl⟩
  | powmod => obtain ⟨hn, w, rfl, hw⟩ := h; exact ⟨hn, _, rfl, hw.pass⟩
  | witness => obtain ⟨hn, w, rfl, hw⟩ := h; exact ⟨hn, _, rfl, hw.pass hn⟩
  | isprime =>
    obtain ⟨k, trial, rfl, hk, hdec, htrial⟩ := h
    cases trial with
    | none => exact ⟨k, none, rfl, hk, hdec, htrial⟩
    | some tr =>
      obtain ⟨hk0, htr⟩ := htrial tr rfl
      refine ⟨k, _, rfl, hk, hdec, fun _ h' => ?_⟩
      cases h'
      exact ⟨hk0, htr.lo_le, htr.le_hi, htr.fits.pass htr.two_le⟩

/-- An answer within the bounds starts the trial that asked for it (R166, R170). -/
theorem HiddenFits.startTrial {W k val : Nat} {i : Instr} {f : InFlight} (h : HiddenFits W i f)
    (hw : f.work = .isPrime k none) (hk : k ≠ 0) (hlo : 2 ≤ val) (hhi : val ≤ f.n - 2) :
    HiddenFits W i (startTrial val f) := by
  obtain ⟨a, b, n, work⟩ := f
  cases hw
  cases i with
  | modred => cases h.2
  | modadd => cases h.2
  | modsub => cases h.2
  | modmul => cases h.2
  | powmod => obtain ⟨-, w, hw, -⟩ := h; cases hw
  | witness => obtain ⟨-, w, hw, -⟩ := h; cases hw
  | isprime =>
    obtain ⟨_, _, hw, hle, hdec, -⟩ := h
    cases hw
    refine ⟨k, _, rfl, hle, hdec, fun _ h' => ?_⟩
    cases h'
    exact ⟨hk, hlo, hhi, rfl⟩

/-- The hidden state of command `i` while no draw is outstanding: what `State.Inv` asks of it then. -/
structure Underway (W : Nat) (i : Instr) (f : InFlight) : Prop where
  a_lt : f.a < 2 ^ W
  b_lt : f.b < 2 ^ W
  n_lt : f.n < 2 ^ W
  fits : HiddenFits W i f
  drawless : ∀ k, f.work = .isPrime k none → k = 0

theorem Underway.pass {W : Nat} {i : Instr} {f : InFlight} (h : Underway W i f) : Underway W i (passInFlight f) := by
  have hfits := h.fits.pass
  obtain ⟨a, b, n, work⟩ := f
  cases work with
  | field => exact h
  | pow w => exact ⟨h.a_lt, h.b_lt, h.n_lt, hfits, nofun⟩
  | witness w => exact ⟨h.a_lt, h.b_lt, h.n_lt, hfits, nofun⟩
  | isPrime k trial =>
    cases trial with
    | none => exact h
    | some tr => exact ⟨h.a_lt, h.b_lt, h.n_lt, hfits, nofun⟩

/-! ## The invariant through the operations of the engine -/

section Operations
variable {s t : State}

theorem State.Inv.hidden_eq_none (hs : s.Inv) (hb : s.busy = false) : s.hidden = none := by
  simpa [hb] using hs.busy_hidden

theorem State.Inv.draw_eq_none (hs : s.Inv) (hr : s.rwait = false) : s.draw = none := by
  simpa [hr] using hs.rwait_draw

theorem State.Inv.busy_of_hidden {f : InFlight} (hs : s.Inv) (hf : s.hidden = some f) : s.busy = true := by
  simpa [hf] using hs.busy_hidden

theorem State.Inv.rwait_of_idle (hs : s.Inv) (hb : s.busy = false) : s.rwait = false := by
  cases hr : s.rwait with
  | false => rfl
  | true => exact absurd (hs.flags.rwait_busy hr) (by simp [hb])

/-- Without a command in flight only flags, registers and the reset input are left to check. -/
theorem State.inv_of_no_command (hpos : 1 ≤ t.limbs) (hle : t.limbs ≤ Config.maxLimbs) (hflags : t.FlagInv)
    (hregs : ∀ r, readReg t r < 2 ^ operandWidth t) (hb : t.busy = false) (hr : t.rwait = false)
    (hh : t.hidden = none) (hd : t.draw = none) (hreset : t.resetHeld = true → t = assertReset t) : t.Inv where
  limbs_pos := hpos
  limbs_le := hle
  flags := hflags
  regs_lt := hregs
  busy_hidden := by rw [hb, hh]; rfl
  rwait_draw := by rw [hr, hd]; rfl
  operands_lt f hf := by rw [hh] at hf; cases hf
  in_flight f hf := by rw [hh] at hf; cases hf
  draw_fits b f hb' := by rw [hd] at hb'; cases hb'
  drawless f k hf := by rw [hh] at hf; cases hf
  held_reset := hreset

/-- A command is in flight and no draw is outstanding. -/
theorem State.Inv.put_in_flight {i : Instr} {f : InFlight} (hs : s.Inv) (hfree : s.resetHeld = false)
    (herr : s.err = false) (hdone : s.done = false) (hdec : decode s.cmdreg = .ok i)
    (hf : Underway (operandWidth s) i f) :
    ({ s with busy := true, rwait := false, draw := none, hidden := some f } : State).Inv where
  limbs_pos := hs.limbs_pos
  limbs_le := hs.limbs_le
  flags := by constructor <;> simp [herr, hdone, hs.flags.errcode_zero]
  regs_lt := hs.regs_lt
  busy_hidden := rfl
  rwait_draw := rfl
  operands_lt _ h := by cases h; exact ⟨hf.a_lt, hf.b_lt, hf.n_lt⟩
  in_flight _ h := by cases h; exact ⟨i, hdec, hf.fits⟩
  draw_fits _ _ h := by cases h
  drawless _ k h hk _ := by cases h; exact hf.drawless k hk
  held_reset h := by simp [hfree] at h

/-- The schedule and the port's last answer are no engine state. -/
theorem State.Inv.set_port (hs : s.Inv) (rest : List Event) (r : Option Reply) :
    ({ s with schedule := rest, reply := r } : State).Inv :=
  { hs with
    flags := { hs.flags with }
    held_reset := fun h => congrArg (fun u : State => { u with schedule := rest, reply := r }) (hs.held_reset h) }

theorem State.Inv.withReply (hs : s.Inv) (r : Reply) : (withReply r s).Inv := hs.set_port s.schedule (some r)

theorem State.Inv.withSchedule (hs : s.Inv) (rest : List Event) : (withSchedule rest s).Inv := hs.set_port rest s.reply

theorem State.Inv.unanswered (hs : s.Inv) : (unanswered s).Inv := hs.set_port s.schedule none

/-- `T`, `IE` and a cleared `DONE` are free. -/
theorem State.Inv.set_flags (hs : s.Inv) (hfree : s.resetHeld = false) (tb ie done : Bool)
    (hdone : s.done = false → done = false) : ({ s with t := tb, ie := ie, done := done } : State).Inv :=
  { hs with
    flags :=
      { hs.flags with
        err_done := fun h => hdone (hs.flags.err_done h)
        busy_done := fun h => hdone (hs.flags.busy_done h) }
    held_reset := fun h => absurd h (by simp [hfree]) }

theorem State.Inv.writeReg {v : Nat} (hs : s.Inv) (hfree : s.resetHeld = false) (hv : v < 2 ^ operandWidth s) (rd : Reg) :
    (writeReg rd v s).Inv :=
  { hs with
    flags := { hs.flags with }
    regs_lt := readReg_writeReg_lt hs.regs_lt hv rd
    held_reset := fun h => absurd h (by simp [hfree]) }

theorem State.Inv.writeLimb {j : Nat} (hs : s.Inv) (hfree : s.resetHeld = false) (i : Reg) (hj : j < s.limbs) (d : Word) :
    (writeLimb i j d s).Inv :=
  hs.writeReg hfree (setLimb_lt d hj (hs.regs_lt i)) i

theorem State.Inv.finish (hs : s.Inv) (hfree : s.resetHeld = false) (herr : s.err = false) : (finish s).Inv :=
  State.inv_of_no_command hs.limbs_pos hs.limbs_le
    (by constructor <;> simp [herr, hs.flags.errcode_zero]) hs.regs_lt rfl rfl rfl rfl (by simp [hfree])

theorem State.Inv.completeReg {v : Nat} (hs : s.Inv) (hfree : s.resetHeld = false) (herr : s.err = false)
    (hv : v < 2 ^ operandWidth s) (rd : Reg) : (completeReg rd v s).Inv :=
  (hs.writeReg hfree hv rd).finish hfree herr

theorem State.Inv.completeFlag (hs : s.Inv) (hfree : s.resetHeld = false) (herr : s.err = false) (b : Bool) :
    (completeFlag b s).Inv :=
  (hs.set_flags hfree b s.ie s.done id).finish hfree herr

theorem errNumber_range (c : ErrCode) : 1 ≤ (errNumber c).toNat ∧ (errNumber c).toNat ≤ 5 := by
  cases c <;> decide

theorem State.Inv.raiseFault (hs : s.Inv) (hfree : s.resetHeld = false) (hdone : s.done = false) (c : ErrCode) :
    (raiseFault c s).Inv :=
  State.inv_of_no_command hs.limbs_pos hs.limbs_le
    (by constructor <;> simp [hdone, errNumber_range]) hs.regs_lt rfl rfl rfl rfl (by simp [hfree])

theorem resetEngine_flagInv : (resetEngine s).FlagInv := by
  constructor <;> simp

theorem State.Inv.resetEngine (hs : s.Inv) (hfree : s.resetHeld = false) : (resetEngine s).Inv :=
  State.inv_of_no_command hs.limbs_pos hs.limbs_le resetEngine_flagInv
    (fun r => by rw [readReg_resetEngine]; exact Nat.two_pow_pos _) rfl rfl rfl rfl (by simp [hfree])

theorem State.Inv.assertReset (hs : s.Inv) : (assertReset s).Inv :=
  State.inv_of_no_command hs.limbs_pos hs.limbs_le { resetEngine_flagInv (s := s) with }
    (fun r => (readReg_resetEngine s r).symm ▸ Nat.two_pow_pos _) rfl rfl rfl rfl (fun _ => rfl)

theorem State.Inv.releaseReset (hs : s.Inv) : (releaseReset s).Inv :=
  { hs with
    flags := { hs.flags with }
    held_reset := nofun }

theorem State.Inv.controlWrite (hs : s.Inv) (hfree : s.resetHeld = false) (v : Word) : (controlWrite v s).Inv := by
  rcases controlWrite_cases v s with ⟨-, h⟩ | ⟨-, h⟩ <;> rw [h]
  · exact hs.resetEngine hfree
  · exact hs.set_flags hfree s.t _ _ (fun hd => by simp [hd])

theorem State.Inv.windowWrite {j : Nat} (hs : s.Inv) (hfree : s.resetHeld = false) (i : Reg) (hj : j < s.limbs)
    (d : Word) : (windowWrite i j d s).Inv := by
  rcases windowWrite_cases i j d s with ⟨-, h⟩ | ⟨-, hb, h⟩ | ⟨-, -, h⟩ <;> rw [h]
  · exact hs.withReply _
  · exact (hs.raiseFault hfree (hs.flags.busy_done hb) _).withReply _
  · exact (hs.writeLimb hfree i hj d).withReply _

theorem State.Inv.latchCommand (hs : s.Inv) (hfree : s.resetHeld = false) (hb : s.busy = false) (w : Word) :
    (latchCommand w s).Inv :=
  State.inv_of_no_command hs.limbs_pos hs.limbs_le
    { hs.flags with err_done := fun _ => rfl, busy_done := fun _ => rfl } hs.regs_lt hb (hs.rwait_of_idle hb)
    (hs.hidden_eq_none hb) (hs.draw_eq_none (hs.rwait_of_idle hb)) (by simp [hfree])

end Operations

/-! ## The invariant through the commands -/

/-- A state in which `exec i` takes its part of a step: the command in `CMDREG` is `i`, it is not done, and reset is
released. -/
structure State.Commanded (s : State) (i : Instr) : Prop where
  inv : s.Inv
  released : s.resetHeld = false
  not_done : s.done = false
  cmd : decode s.cmdreg = .ok i

section Commands
variable {s t : State} {i : Instr} {f : InFlight}

theorem State.Commanded.hiddenFits (hs : s.Commanded i) (hf : s.hidden = some f) : HiddenFits (operandWidth s) i f := by
  obtain ⟨i', hdec, hfits⟩ := hs.inv.in_flight f hf
  cases hdec.symm.trans hs.cmd
  exact hfits

theorem State.Commanded.underway (hs : s.Commanded i) (hr : s.rwait = false) (hf : s.hidden = some f) :
    Underway (operandWidth s) i f := by
  obtain ⟨ha, hb, hn⟩ := hs.inv.operands_lt f hf
  exact ⟨ha, hb, hn, hs.hiddenFits hf, fun k hk => hs.inv.drawless f k hf hk (hs.inv.draw_eq_none hr)⟩

theorem State.Commanded.accept {check : Option ErrCode} (hs : s.Commanded i) (herr : s.err = false) (hb : s.busy = false)
    (hf : check = none → Underway (operandWidth s) i f) : (accept check f s).Inv := by
  cases check with
  | some c => exact hs.inv.raiseFault hs.released hs.not_done c
  | none =>
    have hr := hs.inv.rwait_of_idle hb
    have hput := hs.inv.put_in_flight hs.released herr hs.not_done hs.cmd (hf rfl)
    rw [← hr, ← hs.inv.draw_eq_none hr] at hput
    exact hput

/-- A command in flight goes on with hidden state `f`, no draw outstanding. -/
theorem State.Commanded.receiveDraw (hs : s.Commanded i) (herr : s.err = false) (hb : s.busy = true)
    (hf : Underway (operandWidth s) i f) : (receiveDraw f s).Inv := by
  have hput := hs.inv.put_in_flight hs.released herr hs.not_done hs.cmd hf
  rw [← hb] at hput
  exact hput

/-- The common shape of the commands: what is latched must be on its way, and the command's own next step must keep the
invariant. -/
theorem State.Commanded.runCommand {check : Option ErrCode} {latched : InFlight} {advance : InFlight → Result}
    (hs : s.Commanded i) (hlatch : check = none → Underway (operandWidth s) i latched)
    (hadv : ∀ f, s.err = false → s.hidden = some f → Underway (operandWidth s) i f → advance f = .next t → t.Inv)
    (h : runCommand check latched advance s = .next t) : t.Inv := by
  rcases runCommand_cases h with ⟨hidle, rfl⟩ | ⟨f, ⟨-, hr, herr⟩, hf, hx⟩ | ⟨-, rfl⟩
  · obtain ⟨herr, hb⟩ := engineState_idle_iff.1 hidle
    exact hs.accept herr hb hlatch
  · exact hadv f herr hf (hs.underway hr hf) hx
  · exact hs.inv

/-- The field commands: an operand pair latched with a non-zero modulus, and a result below it (R121). -/
theorem State.Commanded.fieldCommand {rd rm : Reg} {a b : Nat} {value : InFlight → Nat} (hs : s.Commanded i)
    (hfits : ∀ f, HiddenFits (operandWidth s) i f ↔ 1 ≤ f.n ∧ f.work = .field)
    (ha : a < 2 ^ operandWidth s) (hb : b < 2 ^ operandWidth s) (hlt : ∀ f, 1 ≤ f.n → value f < f.n)
    (h : Machine.runCommand (checkModulus (readReg s rm)) (latchBinary a b (readReg s rm))
      (fun f => completeField rd (value f) f s) s = .next t) : t.Inv := by
  refine hs.runCommand (fun hn => ?_) (fun f herr _ hf hx => ?_) h
  · exact ⟨ha, hb, hs.inv.regs_lt rm, (hfits _).2 ⟨checkModulus_eq_none_iff.1 hn, rfl⟩, nofun⟩
  · obtain ⟨-, rfl⟩ := completeField_cases hx
    have hvalue := hlt f ((hfits f).1 hf.fits).1
    exact hs.inv.completeReg hs.released herr (hvalue.trans hf.n_lt) rd

theorem State.Commanded.powmod {rd ra rb rm : Reg} (hs : s.Commanded (.powmod rd ra rb rm))
    (h : execPowmod rd ra rb rm s = .next t) : t.Inv := by
  refine hs.runCommand (fun hn => ?_) (fun f herr _ hf hx => ?_) h
  · have hn := checkModulus_eq_none_iff.1 hn
    exact ⟨hs.inv.regs_lt ra, hs.inv.regs_lt rb, hs.inv.regs_lt rm,
      ⟨hn, _, rfl, powStart_fits hn (hs.inv.regs_lt rb)⟩, nofun⟩
  · obtain ⟨w, hw, rfl⟩ := completePow_cases hx
    obtain ⟨-, w', hw', hfits⟩ := hf.fits
    cases hw.symm.trans hw'
    have hvalue : powFinish f.n w < f.n := hfits.finishes ▸ hfits.value_lt
    exact hs.inv.completeReg hs.released herr (hvalue.trans hf.n_lt) rd

theorem State.Commanded.witness {ra rm : Reg} (hs : s.Commanded (.witness ra rm))
    (h : execWitness ra rm s = .next t) : t.Inv := by
  refine hs.runCommand (fun hn => ?_) (fun f herr _ _ hx => ?_) h
  · exact ⟨hs.inv.regs_lt ra, Nat.two_pow_pos _, hs.inv.regs_lt rm,
      ⟨checkWitness_eq_none_iff.1 hn, _, rfl, rfl⟩, nofun⟩
  · obtain ⟨w, -, rfl⟩ := completeWitness_cases hx
    exact hs.inv.completeFlag hs.released herr _

/-- Everything the trial loop can do: a verdict, or the next draw (R170, R173). -/
theorem trialLoop_cases (rounds k : Nat) (trial : Option Trial) (f : InFlight) (s : State) :
    (∃ b, trialLoop rounds k trial f s = completeFlag b s) ∨
      (k < rounds ∧ trialLoop rounds k trial f s =
        requestDraw (drawBounds f.n) { f with work := .isPrime (k + 1) none } s) := by
  have hnext : (∃ b, nextTrial rounds k f s = completeFlag b s) ∨ (k < rounds ∧ nextTrial rounds k f s =
      Machine.requestDraw (drawBounds f.n) { f with work := .isPrime (k + 1) none } s) :=
    (nextTrial_cases rounds k f s).symm.imp (fun h => ⟨true, h.2⟩) id
  cases trial with
  | none => exact hnext
  | some tr =>
    by_cases hc : witnessFinish tr.a f.n tr.work = true
    · exact .inl ⟨false, by simp [trialLoop, hc]⟩
    · simpa only [trialLoop, if_neg hc] using hnext

/-- A request leaves ISPRIME waiting for the witness of a new trial (R166). -/
theorem State.Commanded.requestDraw {rm : Reg} {rounds k : Nat} (hs : s.Commanded (.isprime rm rounds))
    (herr : s.err = false) (hf : s.hidden = some f) (hk : k < rounds) (hdec : immediateDecision f.n = none) :
    (requestDraw (drawBounds f.n) { f with work := .isPrime (k + 1) none } s).Inv where
  limbs_pos := hs.inv.limbs_pos
  limbs_le := hs.inv.limbs_le
  flags := by constructor <;> simp [herr, hs.not_done, hs.inv.busy_of_hidden hf, hs.inv.flags.errcode_zero]
  regs_lt := hs.inv.regs_lt
  busy_hidden := hs.inv.busy_of_hidden hf
  rwait_draw := rfl
  operands_lt _ h := by cases h; exact hs.inv.operands_lt f hf
  in_flight _ h := by
    cases h
    exact ⟨_, hs.cmd, k + 1, none, rfl, hk, fun _ => hdec, nofun⟩
  draw_fits _ _ hb h := by
    cases hb
    cases h
    exact ⟨rfl, k + 1, Nat.succ_ne_zero k, rfl⟩
  drawless _ _ _ _ h := by cases h
  held_reset h := by simp [hs.released] at h

theorem State.Commanded.isprime {rm : Reg} {rounds : Nat} (hs : s.Commanded (.isprime rm rounds))
    (h : execIsprime rm rounds s = .next t) : t.Inv := by
  refine hs.runCommand (fun _ => ?_) (fun f herr hf _ hx => ?_) h
  · exact ⟨Nat.two_pow_pos _, Nat.two_pow_pos _, hs.inv.regs_lt rm,
      ⟨0, none, rfl, Nat.zero_le _, fun h => absurd rfl h, nofun⟩, fun k hk => by cases hk; rfl⟩
  · obtain ⟨k, trial, -, ⟨b, -, rfl⟩ | ⟨hdec, rfl⟩⟩ := advanceIsprime_cases hx
    · exact hs.inv.completeFlag hs.released herr b
    · obtain ⟨b, ht⟩ | ⟨hk, ht⟩ := trialLoop_cases rounds k trial f s <;> rw [ht]
      · exact hs.inv.completeFlag hs.released herr b
      · exact hs.requestDraw herr hf hk hdec

/-- Every command keeps the invariant, at its acceptance and at its own steps. -/
theorem State.Commanded.exec (hs : s.Commanded i) (h : exec i s = .next t) : t.Inv := by
  have hregs := hs.inv.regs_lt
  cases i with
  | modred rd ra rm =>
    exact hs.fieldCommand (b := 0) (fun _ => Iff.rfl) (hregs ra) (Nat.two_pow_pos _) (fun _ hn => Nat.mod_lt _ hn) h
  | modadd rd ra rb rm =>
    exact hs.fieldCommand (fun _ => Iff.rfl) (hregs ra) (hregs rb) (fun _ hn => Nat.mod_lt _ hn) h
  | modsub rd ra rb rm => exact hs.fieldCommand (fun _ => Iff.rfl) (hregs ra) (hregs rb) (fun _ hn => modsub_lt hn) h
  | modmul rd ra rb rm =>
    exact hs.fieldCommand (fun _ => Iff.rfl) (hregs ra) (hregs rb) (fun _ hn => Nat.mod_lt _ hn) h
  | powmod rd ra rb rm => exact hs.powmod h
  | witness ra rm => exact hs.witness h
  | isprime rm rounds => exact hs.isprime h

end Commands

/-! ## The invariant through the events (R310) -/

section Events
variable {s t : State}

theorem State.Inv.acceptCommand {w : Word} (hs : s.Inv) (hfree : s.resetHeld = false) (hb : s.busy = false)
    (h : acceptCommand w s = .next t) : t.Inv := by
  have hlatched := hs.latchCommand hfree hb w
  obtain ⟨e, -, rfl⟩ | ⟨i, hdec, hx⟩ := acceptCommand_cases h
  · exact hlatched.raiseFault hfree rfl _
  · exact State.Commanded.exec ⟨hlatched, hfree, rfl, hdec⟩ hx

theorem State.Inv.commandWrite {w : Word} (hs : s.Inv) (hfree : s.resetHeld = false)
    (h : commandWrite w s = .next t) : t.Inv := by
  rcases commandWrite_cases h with ⟨-, rfl⟩ | ⟨-, hb, rfl⟩ | ⟨-, hb, hx⟩
  · exact hs.withReply _
  · exact (hs.raiseFault hfree (hs.flags.busy_done hb) _).withReply _
  · exact (hs.withReply _).acceptCommand hfree hb hx

theorem State.Inv.hostWrite {width : AccessWidth} {addr : Nat} {v : Word} (hs : s.Inv) (hfree : s.resetHeld = false)
    (h : hostWrite width addr v s = .next t) : t.Inv := by
  unfold Machine.hostWrite at h
  cases hp : portEntry width s.limbs addr with
  | none => rw [hp] at h; cases h; exact hs.withReply _
  | some entry =>
    rw [hp] at h
    cases entry with
    | ctrl => cases h; exact (hs.controlWrite hfree v).withReply _
    | status => cases h; exact hs.withReply _
    | cmd => exact hs.commandWrite hfree h
    | caps => cases h; exact hs.withReply _
    | limb i j => cases h; exact hs.windowWrite hfree i (portEntry_limb_lt hp) v

/-- While reset is released, a hidden state is that of the command in `CMDREG` (R37, R43). -/
theorem State.Inv.commanded {f : InFlight} (hs : s.Inv) (hfree : s.resetHeld = false) (hf : s.hidden = some f) :
    ∃ i, s.Commanded i := by
  obtain ⟨i, hdec, -⟩ := hs.in_flight f hf
  exact ⟨i, hs, hfree, hs.flags.busy_done (hs.busy_of_hidden hf), hdec⟩

theorem State.Inv.engineStep (hs : s.Inv) (hfree : s.resetHeld = false) (h : engineStep s = .next t) : t.Inv := by
  rcases engineStep_cases h with ⟨i, ⟨hb, -, -⟩, hdec, hx⟩ | ⟨-, rfl⟩
  · exact State.Commanded.exec ⟨hs, hfree, hs.flags.busy_done hb, hdec⟩ hx
  · exact hs

theorem State.Inv.passStep (hs : s.Inv) (hfree : s.resetHeld = false) : (passStep s).Inv := by
  unfold Machine.passStep
  cases he : engineState s with
  | running =>
    obtain ⟨hb, hr, herr⟩ := engineState_running_iff.1 he
    obtain ⟨f, hf⟩ := Option.isSome_iff_exists.1 (hs.busy_hidden.symm.trans hb)
    obtain ⟨i, hc⟩ := hs.commanded hfree hf
    have hnext := hc.receiveDraw herr hb (hc.underway hr hf).pass
    rw [Machine.receiveDraw, ← hr, ← hs.draw_eq_none hr] at hnext
    simpa only [hf, Option.map_some] using hnext
  | idle => exact hs
  | waiting => exact hs
  | faulted => exact hs

theorem State.Inv.receiveAnswer {b : Bounds} {f : InFlight} (hs : s.Inv) (hfree : s.resetHeld = false)
    (hw : s.Waiting) (hd : s.draw = some b) (hf : s.hidden = some f) (val : Nat) : (receiveAnswer val b f s).Inv := by
  obtain ⟨hb, -, herr⟩ := hw
  obtain ⟨i, hc⟩ := hs.commanded hfree hf
  unfold Machine.receiveAnswer
  split
  case isTrue => exact hs.raiseFault hfree hc.not_done _
  case isFalse hin =>
    obtain ⟨rfl, k, hk, hwork⟩ := hs.draw_fits b f hd hf
    obtain ⟨ha, hb', hn⟩ := hs.operands_lt f hf
    have hlo : 2 ≤ val := Nat.le_of_not_lt fun h => hin (.inl h)
    have hhi : val ≤ f.n - 2 := Nat.le_of_not_lt fun h => hin (.inr h)
    have hfits := (hc.hiddenFits hf).startTrial hwork hk hlo hhi
    refine hc.receiveDraw herr hb ?_
    obtain ⟨a, b, n, work⟩ := f
    cases hwork
    exact ⟨ha, hb', hn, hfits, nofun⟩

theorem State.Inv.answerStep {val : Nat} (hs : s.Inv) (hfree : s.resetHeld = false) (h : answerStep val s = .next t) :
    t.Inv := by
  rcases answerStep_cases h with ⟨b, f, hw, hd, hf, rfl⟩ | ⟨-, rfl⟩
  · exact hs.receiveAnswer hfree hw hd hf val
  · exact hs

theorem State.Inv.heldEvent (hs : s.Inv) (e : Event) : (heldEvent e s).Inv := by
  cases e with
  | read => exact hs.unanswered
  | write => exact hs.unanswered
  | engine => exact hs
  | pass => exact hs
  | answer => exact hs
  | resetAssert => exact hs.assertReset
  | resetRelease => exact hs.releaseReset

theorem State.Inv.freeEvent {e : Event} (hs : s.Inv) (hfree : s.resetHeld = false) (h : freeEvent e s = .next t) :
    t.Inv := by
  cases e with
  | read => cases h; exact hs.withReply _
  | write => exact hs.hostWrite hfree h
  | engine => exact hs.engineStep hfree h
  | pass => cases h; exact hs.passStep hfree
  | answer => exact hs.answerStep hfree h
  | resetAssert => cases h; exact hs.assertReset
  | resetRelease => cases h; exact hs.releaseReset

theorem State.Inv.takeEvent {e : Event} (hs : s.Inv) (h : takeEvent e s = .next t) : t.Inv := by
  cases hr : s.resetHeld with
  | true => rw [takeEvent_held e hr] at h; cases h; exact hs.heldEvent e
  | false => rw [takeEvent_free e hr] at h; exact hs.freeEvent hr h

theorem State.Inv.step (hs : s.Inv) (h : step s = .next t) : t.Inv := by
  cases hsched : s.schedule with
  | nil => rw [step_of_nil hsched] at h; exact hs.takeEvent h
  | cons e rest => rw [step_of_cons hsched] at h; exact (hs.withSchedule rest).takeEvent h

end Events

end Sys2Proof.Machine

/-- Settles O39: `State.Inv` is inductive as it stands; each event is one of the operations that keep it. -/
theorem stepKeepsMachineInvariant : Obligations.StepKeepsMachineInvariant :=
  fun _ _ hs h => hs.step h
end

section
/-! SUPPORT. The commands in one shape: `exec` is `runCommand` with a check, a latched hidden state and a next step of its
own for each command, so that what any command can do is said once (`ExecMove`). -/

namespace Sys2Proof.Machine

/-- The operand check of a command (R254). -/
def commandCheck (i : Instr) (s : State) : Option ErrCode :=
  match i with
  | .modred _ _ rm => checkModulus (readReg s rm)
  | .modadd _ _ _ rm => checkModulus (readReg s rm)
  | .modsub _ _ _ rm => checkModulus (readReg s rm)
  | .modmul _ _ _ rm => checkModulus (readReg s rm)
  | .powmod _ _ _ rm => checkModulus (readReg s rm)
  | .witness _ rm => checkWitness (readReg s rm)
  | .isprime _ _ => none

/-- The hidden state a command starts from (R44 step 4). -/
def commandLatch (i : Instr) (s : State) : InFlight :=
  match i with
  | .modred _ ra rm => latchUnary (readReg s ra) (readReg s rm)
  | .modadd _ ra rb rm => latchBinary (readReg s ra) (readReg s rb) (readReg s rm)
  | .modsub _ ra rb rm => latchBinary (readReg s ra) (readReg s rb) (readReg s rm)
  | .modmul _ ra rb rm => latchBinary (readReg s ra) (readReg s rb) (readReg s rm)
  | .powmod _ ra rb rm => latchPow (readReg s ra) (readReg s rb) (readReg s rm)
  | .witness ra rm => latchWitness (readReg s ra) (readReg s rm)
  | .isprime rm _ => latchIsprime (readReg s rm)

/-- The next visible step of a running command with hidden state `f` (R310). -/
def commandAdvance (i : Instr) (f : InFlight) (s : State) : Result :=
  match i with
  | .modred rd _ _ => completeField rd (modred f.a f.n) f s
  | .modadd rd _ _ _ => completeField rd (modadd f.a f.b f.n) f s
  | .modsub rd _ _ _ => completeField rd (modsub f.a f.b f.n) f s
  | .modmul rd _ _ _ => completeField rd (modmul f.a f.b f.n) f s
  | .powmod rd _ _ _ => completePow rd f s
  | .witness _ _ => completeWitness f s
  | .isprime _ rounds => advanceIsprime rounds f s

theorem exec_eq_runCommand (i : Instr) (s : State) :
    exec i s = runCommand (commandCheck i s) (commandLatch i s) (fun f => commandAdvance i f s) s := by
  cases i <;> rfl

/-- A command of an idle engine has one move, its acceptance. -/
theorem exec_of_engineState_idle {s : State} (i : Instr) (he : engineState s = .idle) :
    exec i s = .next (accept (commandCheck i s) (commandLatch i s) s) := by
  rw [exec_eq_runCommand]
  unfold runCommand
  rw [he]

theorem exec_idle {s : State} (i : Instr) (h : s.Idle) :
    exec i s = .next (accept (commandCheck i s) (commandLatch i s) s) :=
  exec_of_engineState_idle i (engineState_of_idle h)

theorem exec_running {s : State} {f : InFlight} (i : Instr) (h : s.Running) (hf : s.hidden = some f) :
    exec i s = commandAdvance i f s := by
  rw [exec_eq_runCommand, runCommand_running h hf]

/-! ## What a command starts from (R23, R43) -/

section Operands
variable {i : Instr} {s s' : State}

theorem commandCheck_congr (h : ∀ r, r ∈ instrSources i → readReg s r = readReg s' r) :
    commandCheck i s = commandCheck i s' := by
  cases i <;> simp_all [commandCheck, instrSources]

theorem commandLatch_congr (h : ∀ r, r ∈ instrSources i → readReg s r = readReg s' r) :
    commandLatch i s = commandLatch i s' := by
  cases i <;> simp_all [commandLatch, instrSources]

end Operands

/-! ## What a command can do -/

/-- The moves of command `i` from state `s`: its acceptance, a completion with its kind of result, a draw request, or none
(R44, R45, R166, R258). -/
inductive ExecMove (i : Instr) (s : State) : State → Prop
  | accepted (c : Option ErrCode) (f : InFlight) (he : engineState s = .idle) : ExecMove i s (accept c f s)
  | wroteReg (rd : Reg) (v : Nat) (hrun : s.Running) (hrd : instrDest i = some rd) : ExecMove i s (completeReg rd v s)
  | wroteFlag (b : Bool) (hrun : s.Running) (htest : instrTests i = true) : ExecMove i s (completeFlag b s)
  | requested (b : Bounds) (f : InFlight) (hrun : s.Running) : ExecMove i s (requestDraw b f s)
  | held : ExecMove i s s

section Moves
variable {i : Instr} {s t : State} {f : InFlight}

theorem ExecMove.of_completeField {rd : Reg} {v : Nat} (hrun : s.Running) (hrd : instrDest i = some rd)
    (h : completeField rd v f s = .next t) : ExecMove i s t := by
  obtain ⟨-, rfl⟩ := completeField_cases h
  exact .wroteReg rd v hrun hrd

theorem ExecMove.of_advance (hrun : s.Running) (h : commandAdvance i f s = .next t) : ExecMove i s t := by
  cases i with
  | modred => exact .of_completeField hrun rfl h
  | modadd => exact .of_completeField hrun rfl h
  | modsub => exact .of_completeField hrun rfl h
  | modmul => exact .of_completeField hrun rfl h
  | powmod rd =>
    obtain ⟨w, -, rfl⟩ := completePow_cases h
    exact .wroteReg rd _ hrun rfl
  | witness =>
    obtain ⟨w, -, rfl⟩ := completeWitness_cases h
    exact .wroteFlag _ hrun rfl
  | isprime rm rounds =>
    obtain ⟨k, trial, -, ⟨b, -, rfl⟩ | ⟨-, rfl⟩⟩ := advanceIsprime_cases h
    · exact .wroteFlag b hrun rfl
    · obtain ⟨b, ht⟩ | ⟨-, ht⟩ := trialLoop_cases rounds k trial f s <;> rw [ht]
      · exact .wroteFlag b hrun rfl
      · exact .requested _ _ hrun

theorem ExecMove.of_exec (h : exec i s = .next t) : ExecMove i s t := by
  rw [exec_eq_runCommand] at h
  rcases runCommand_cases h with ⟨he, rfl⟩ | ⟨f, hrun, -, hx⟩ | ⟨-, rfl⟩
  · exact .accepted _ _ he
  · exact .of_advance hrun hx
  · exact .held

end Moves

end Sys2Proof.Machine

open Sys2Proof Sys2Proof.Machine

/-- Settles O36: acceptance depends on the state through the operand check and the latched values alone. -/
theorem onlyNamedRegistersMatter : Obligations.OnlyNamedRegistersMatter := by
  intro i s s' hs hs' hreg
  refine ⟨_, _, exec_idle i hs, exec_idle i hs', ?_⟩
  rw [commandCheck_congr hreg, commandLatch_congr hreg]
  cases commandCheck i s' with
  | some c => simp
  | none => simp [hs.2.2, hs'.2.2]

/-- Settles O32: read off each of the moves a command can make. -/
theorem commandFrame : Obligations.CommandFrame := by
  intro i s t h
  cases ExecMove.of_exec h with
  | accepted c f => cases c <;> simp [readReg]
  | wroteReg rd v _ hrd =>
    refine ⟨rfl, rfl, rfl, rfl, rfl, rfl, fun r hr => ?_, fun _ => rfl⟩
    have hne : r ≠ rd := fun e => hr (e ▸ hrd)
    rw [readReg_completeReg, readReg_writeReg_other _ _ _ _ hne]
  | wroteFlag b _ htest => simp [readReg_completeFlag, htest]
  | requested b f => simp [readReg]
  | held => simp
end

section
/-! SUPPORT. What a step can do to the state, said once over every event (`EventMove`), and the register, result-flag and
flag-invariant statements read off it. -/

namespace Sys2Proof.Machine

/-! ## The address map read backwards (R64, R66) -/

/-- The byte address an entry of the map stands at (R30, R66). -/
def entryAddr (L : Nat) : MapEntry → Nat
  | .ctrl => ctrlAddr
  | .status => statusAddr
  | .cmd => cmdAddr
  | .caps => capsAddr
  | .limb i j => limbAddr L i j

theorem entryAddr_of_windowEntry {L k : Nat} {e : MapEntry} (h : windowEntry L k = some e) :
    entryAddr L e = Config.regBase + 4 * k := by
  unfold windowEntry at h
  split at h
  · cases h
    rw [entryAddr, limbAddr, Nat.div_add_mod]
  · cases h

/-- An access meets an entry only as a 32-bit access at the entry's own address. -/
theorem portEntry_eq_some {width : AccessWidth} {L addr : Nat} {e : MapEntry} (h : portEntry width L addr = some e) :
    width = .word ∧ addr = entryAddr L e := by
  cases width with
  | word =>
    refine ⟨rfl, ?_⟩
    dsimp only [portEntry, mapEntry] at h
    split_ifs at h with hmod hctrl hstatus hcmd hcaps hlow
    · cases h; exact hctrl
    · cases h; exact hstatus
    · cases h; exact hcmd
    · cases h; exact hcaps
    · rw [entryAddr_of_windowEntry h]
      unfold Config.regBase at *
      omega
  | byte => cases h
  | half => cases h
  | double => cases h

/-! ## Everything an event can do (R310) -/

/-- The moves of event `e` from state `s`. -/
inductive EventMove : Event → State → State → Prop
  /-- At most the port's last answer changes: a read, a refused write, an event without a step. -/
  | quiet {e s} (r : Option Reply) : EventMove e s { s with reply := r }
  | hardReset {s} : EventMove .resetAssert s (assertReset s)
  | released {s} : EventMove .resetRelease s (releaseReset s)
  | softReset {s} (v : Word) (hv : v.getLsbD 1 = true) :
    EventMove (.write .word ctrlAddr v) s (withReply writeOk (resetEngine s))
  | control {s} (v : Word) :
    EventMove (.write .word ctrlAddr v) s
      (withReply writeOk { s with ie := v.getLsbD 0, done := if v.getLsbD 2 then false else s.done })
  | busyFault {s width addr v} (hb : s.busy = true) :
    EventMove (.write width addr v) s (withReply writeBuserr (raiseFault .busy s))
  | limbWrite {s} (i : Reg) (j : Nat) (v : Word) (hj : j < s.limbs) (herr : s.err = false) (hb : s.busy = false) :
    EventMove (.write .word (limbAddr s.limbs i j) v) s (withReply writeOk (writeLimb i j v s))
  | illegal {s} (w : Word) (herr : s.err = false) (hb : s.busy = false) :
    EventMove (.write .word cmdAddr w) s (raiseFault .illegal (latchCommand w (withReply writeOk s)))
  | accepted {s} (w : Word) (c : Option ErrCode) (f : InFlight) (herr : s.err = false) (hb : s.busy = false) :
    EventMove (.write .word cmdAddr w) s (accept c f (latchCommand w (withReply writeOk s)))
  | command {s t} (i : Instr) (hrun : s.Running) (hdec : decode s.cmdreg = .ok i) (hmove : ExecMove i s t) :
    EventMove .engine s t
  | pass {s} (f : Option InFlight) (hrun : s.Running) : EventMove .pass s { s with hidden := f }
  | drawRefused {s} (val : Nat) (hwait : s.Waiting) : EventMove (.answer val) s (raiseFault .rand s)
  | drawTaken {s} (val : Nat) (f : InFlight) (hwait : s.Waiting) : EventMove (.answer val) s (receiveDraw f s)

section Events
variable {e : Event} {s t : State}

theorem EventMove.refl (e : Event) (s : State) : EventMove e s s := .quiet s.reply

theorem EventMove.of_commandWrite {w : Word} (h : commandWrite w s = .next t) :
    EventMove (.write .word cmdAddr w) s t := by
  rcases commandWrite_cases h with ⟨-, rfl⟩ | ⟨-, hb, rfl⟩ | ⟨herr, hb, hx⟩
  · exact .quiet _
  · exact .busyFault hb
  · obtain ⟨e, -, rfl⟩ | ⟨i, -, hx⟩ := acceptCommand_cases hx
    · exact .illegal w herr hb
    · have hidle : engineState (latchCommand w (withReply writeOk s)) = .idle := engineState_idle_iff.2 ⟨herr, hb⟩
      rw [exec_of_engineState_idle i hidle] at hx
      cases hx
      exact .accepted w _ _ herr hb

theorem EventMove.controlWrite (v : Word) (s : State) :
    EventMove (.write .word ctrlAddr v) s (withReply writeOk (controlWrite v s)) := by
  rcases controlWrite_cases v s with ⟨hv, h⟩ | ⟨-, h⟩ <;> rw [h]
  · exact .softReset v hv
  · exact .control v

theorem EventMove.windowWrite {i : Reg} {j : Nat} (hj : j < s.limbs) (v : Word) :
    EventMove (.write .word (limbAddr s.limbs i j) v) s (windowWrite i j v s) := by
  rcases windowWrite_cases i j v s with ⟨-, h⟩ | ⟨-, hb, h⟩ | ⟨herr, hb, h⟩ <;> rw [h]
  · exact .quiet _
  · exact .busyFault hb
  · exact .limbWrite i j v hj herr hb

theorem EventMove.of_hostWrite {width : AccessWidth} {addr : Nat} {v : Word} (h : hostWrite width addr v s = .next t) :
    EventMove (.write width addr v) s t := by
  unfold hostWrite at h
  cases hp : portEntry width s.limbs addr with
  | none => rw [hp] at h; cases h; exact .quiet _
  | some entry =>
    rw [hp] at h
    obtain ⟨rfl, rfl⟩ := portEntry_eq_some hp
    cases entry with
    | ctrl => cases h; exact .controlWrite v s
    | status => cases h; exact .quiet _
    | cmd => exact .of_commandWrite h
    | caps => cases h; exact .quiet _
    | limb i j => cases h; exact .windowWrite (portEntry_limb_lt hp) v

theorem EventMove.of_engineStep (h : engineStep s = .next t) : EventMove .engine s t := by
  rcases engineStep_cases h with ⟨i, hrun, hdec, hx⟩ | ⟨-, rfl⟩
  · exact .command i hrun hdec (.of_exec hx)
  · exact .refl _ _

theorem EventMove.passStep (s : State) : EventMove .pass s (passStep s) := by
  unfold Machine.passStep
  cases he : engineState s with
  | running => exact .pass _ (engineState_running_iff.1 he)
  | idle => exact .refl _ _
  | waiting => exact .refl _ _
  | faulted => exact .refl _ _

theorem EventMove.of_answerStep {val : Nat} (h : answerStep val s = .next t) : EventMove (.answer val) s t := by
  rcases answerStep_cases h with ⟨b, f, hwait, -, -, rfl⟩ | ⟨-, rfl⟩
  · unfold receiveAnswer
    split
    · exact .drawRefused val hwait
    · exact .drawTaken val _ hwait
  · exact .refl _ _

theorem EventMove.heldEvent (e : Event) (s : State) : EventMove e s (heldEvent e s) := by
  cases e with
  | read => exact .quiet _
  | write => exact .quiet _
  | engine => exact .refl _ _
  | pass => exact .refl _ _
  | answer => exact .refl _ _
  | resetAssert => exact .hardReset
  | resetRelease => exact .released

theorem EventMove.of_freeEvent (h : freeEvent e s = .next t) : EventMove e s t := by
  cases e with
  | read => cases h; exact .quiet _
  | write => exact .of_hostWrite h
  | engine => exact .of_engineStep h
  | pass => cases h; exact .passStep s
  | answer => exact .of_answerStep h
  | resetAssert => cases h; exact .hardReset
  | resetRelease => cases h; exact .released

theorem EventMove.of_takeEvent (h : takeEvent e s = .next t) : EventMove e s t := by
  cases hr : s.resetHeld with
  | true => rw [takeEvent_held e hr] at h; cases h; exact .heldEvent e s
  | false => rw [takeEvent_free e hr] at h; exact .of_freeEvent h

/-- Everything a step can do: the next event's move, or the engine's when none is scheduled (log 3). -/
theorem step_cases (h : step s = .next t) :
    (s.schedule = [] ∧ EventMove .engine s t) ∨
      ∃ e rest, s.schedule = e :: rest ∧ EventMove e (withSchedule rest s) t := by
  cases hsched : s.schedule with
  | nil => rw [step_of_nil hsched] at h; exact .inl ⟨rfl, .of_takeEvent h⟩
  | cons e rest => rw [step_of_cons hsched] at h; exact .inr ⟨e, rest, rfl, .of_takeEvent h⟩

/-! ## Who writes a register, and who writes `T` -/

theorem readReg_accept (c : Option ErrCode) (f : InFlight) (s : State) (r : Reg) :
    readReg (accept c f s) r = readReg s r := by
  cases c <;> rfl

theorem accept_t (c : Option ErrCode) (f : InFlight) (s : State) : (accept c f s).t = s.t := by
  cases c <;> rfl

theorem eq_of_readReg_writeReg_ne {v : Nat} {r rd : Reg} (h : readReg (writeReg rd v s) r ≠ readReg s r) : rd = r := by
  by_contra hne
  exact h (readReg_writeReg_other _ _ _ _ (Ne.symm hne))

/-- Of a command's moves only the completion of one with that `rd` changes a register (R22). -/
theorem ExecMove.dest_of_readReg_ne {i : Instr} {r : Reg} (h : ExecMove i s t) (hr : readReg t r ≠ readReg s r) :
    instrDest i = some r ∧ t.done = true := by
  cases h with
  | accepted c f => exact absurd (readReg_accept c f s r) hr
  | wroteReg rd v _ hrd => exact ⟨eq_of_readReg_writeReg_ne hr ▸ hrd, rfl⟩
  | wroteFlag => exact absurd rfl hr
  | requested => exact absurd rfl hr
  | held => exact absurd rfl hr

/-- Of a command's moves only the completion of a test changes `T` (R28). -/
theorem ExecMove.tests_of_t_ne {i : Instr} (h : ExecMove i s t) (ht : t.t ≠ s.t) :
    instrTests i = true ∧ t.done = true := by
  cases h with
  | accepted c f => exact absurd (accept_t c f s) ht
  | wroteReg => exact absurd rfl ht
  | wroteFlag _ _ htest => exact ⟨htest, rfl⟩
  | requested => exact absurd rfl ht
  | held => exact absurd rfl ht

theorem EventMove.register_writers {r : Reg} (h : EventMove e s t) (hr : readReg t r ≠ readReg s r) :
    e = .resetAssert ∨
    (∃ v, e = .write .word ctrlAddr v ∧ v.getLsbD 1 = true) ∨
    (∃ j v, j < s.limbs ∧ e = .write .word (limbAddr s.limbs r j) v ∧ s.busy = false ∧ s.err = false) ∨
    (∃ i, e = .engine ∧ s.Running ∧ decode s.cmdreg = .ok i ∧ instrDest i = some r ∧ t.done = true) := by
  cases h with
  | hardReset => exact .inl rfl
  | softReset v hv => exact .inr (.inl ⟨v, rfl, hv⟩)
  | limbWrite i j v hj herr hb =>
    cases eq_of_readReg_writeReg_ne hr
    exact .inr (.inr (.inl ⟨j, v, hj, rfl, hb, herr⟩))
  | command i hrun hdec hmove => exact .inr (.inr (.inr ⟨i, rfl, hrun, hdec, hmove.dest_of_readReg_ne hr⟩))
  | accepted w c f => exact absurd (readReg_accept c f _ r) hr
  | quiet => exact absurd rfl hr
  | released => exact absurd rfl hr
  | control => exact absurd rfl hr
  | busyFault => exact absurd rfl hr
  | illegal => exact absurd rfl hr
  | pass => exact absurd rfl hr
  | drawRefused => exact absurd rfl hr
  | drawTaken => exact absurd rfl hr

theorem EventMove.t_writers (h : EventMove e s t) (ht : t.t ≠ s.t) :
    e = .resetAssert ∨
    (∃ v, e = .write .word ctrlAddr v ∧ v.getLsbD 1 = true) ∨
    (∃ i, s.Running ∧ decode s.cmdreg = .ok i ∧ instrTests i = true ∧ t.done = true) := by
  cases h with
  | hardReset => exact .inl rfl
  | softReset v hv => exact .inr (.inl ⟨v, rfl, hv⟩)
  | command i hrun hdec hmove => exact .inr (.inr ⟨i, hrun, hdec, hmove.tests_of_t_ne ht⟩)
  | accepted w c f => exact absurd (accept_t c f _) ht
  | quiet => exact absurd rfl ht
  | released => exact absurd rfl ht
  | control => exact absurd rfl ht
  | busyFault => exact absurd rfl ht
  | limbWrite => exact absurd rfl ht
  | illegal => exact absurd rfl ht
  | pass => exact absurd rfl ht
  | drawRefused => exact absurd rfl ht
  | drawTaken => exact absurd rfl ht

end Events

/-! ## The flag invariants through the moves (R34) -/

section Flags
variable {e : Event} {s t : State}

/-- The flag invariants speak of six fields only. -/
theorem State.FlagInv.of_flags_eq (hs : s.FlagInv) (hbusy : t.busy = s.busy := by rfl)
    (hdone : t.done = s.done := by rfl) (herr : t.err = s.err := by rfl) (hrwait : t.rwait = s.rwait := by rfl)
    (hcode : t.errcode = s.errcode := by rfl) : t.FlagInv := by
  constructor <;> simp only [hbusy, hdone, herr, hrwait, hcode]
  exacts [hs.err_busy, hs.err_rwait, hs.err_done, hs.rwait_busy, hs.busy_done, hs.errcode_zero, hs.errcode_range]

theorem flagInv_raiseFault (hdone : s.done = false) (c : ErrCode) : (raiseFault c s).FlagInv := by
  constructor <;> simp [hdone, errNumber_range]

theorem State.FlagInv.finish (hs : s.FlagInv) (herr : s.err = false) : (finish s).FlagInv := by
  constructor <;> simp [herr, hs.errcode_zero]

/-- `BUSY = 1` with `DONE = 0` and no fault, whatever `RWAIT`. -/
theorem State.FlagInv.set_busy (hs : s.FlagInv) (hdone : s.done = false) (herr : s.err = false) (waits : Bool) :
    ({ s with busy := true, rwait := waits } : State).FlagInv := by
  constructor <;> simp [hdone, herr, hs.errcode_zero]

theorem State.FlagInv.accept (hs : s.FlagInv) (hdone : s.done = false) (herr : s.err = false) (c : Option ErrCode)
    (f : InFlight) : (accept c f s).FlagInv := by
  cases c with
  | some c => exact flagInv_raiseFault hdone c
  | none => exact (hs.set_busy hdone herr s.rwait).of_flags_eq

theorem State.FlagInv.set_rwait (hs : s.FlagInv) (hb : s.busy = true) (herr : s.err = false) (waits : Bool) :
    ({ s with rwait := waits } : State).FlagInv :=
  (hs.set_busy (hs.busy_done hb) herr waits).of_flags_eq hb

theorem State.FlagInv.latchCommand (hs : s.FlagInv) (w : Word) : (latchCommand w s).FlagInv :=
  { hs with
    err_done := fun _ => rfl
    busy_done := fun _ => rfl }

theorem State.FlagInv.control (hs : s.FlagInv) (ie clear : Bool) :
    ({ s with ie := ie, done := if clear then false else s.done } : State).FlagInv :=
  { hs with
    err_done := fun h => by simp [hs.err_done h]
    busy_done := fun h => by simp [hs.busy_done h] }

/-- The commands keep the flag invariants where `DONE` is clear, as acceptance step 1 and `BUSY = 1` leave it. -/
theorem ExecMove.flagInv {i : Instr} (h : ExecMove i s t) (hs : s.FlagInv) (hdone : s.done = false) : t.FlagInv := by
  cases h with
  | accepted c f he => exact hs.accept hdone (engineState_idle_iff.1 he).1 c f
  | wroteReg rd v hrun => exact (hs.of_flags_eq (t := writeReg rd v s)).finish hrun.2.2
  | wroteFlag b hrun => exact (hs.of_flags_eq (t := { s with t := b })).finish hrun.2.2
  | requested b f hrun => exact (hs.set_rwait hrun.1 hrun.2.2 true).of_flags_eq
  | held => exact hs

theorem EventMove.flagInv (h : EventMove e s t) (hs : s.FlagInv) : t.FlagInv := by
  cases h with
  | quiet => exact hs.of_flags_eq
  | hardReset => exact (resetEngine_flagInv (s := s)).of_flags_eq
  | released => exact hs.of_flags_eq
  | softReset => exact (resetEngine_flagInv (s := s)).of_flags_eq
  | control v => exact (hs.control (v.getLsbD 0) (v.getLsbD 2)).of_flags_eq
  | busyFault hb => exact (flagInv_raiseFault (hs.busy_done hb) .busy).of_flags_eq
  | limbWrite => exact hs.of_flags_eq
  | illegal => exact flagInv_raiseFault rfl .illegal
  | accepted w c f herr =>
    exact ((hs.latchCommand w).of_flags_eq (t := Machine.latchCommand w (withReply writeOk s))).accept rfl herr c f
  | command i hrun hdec hmove => exact hmove.flagInv hs (hs.busy_done hrun.1)
  | pass => exact hs.of_flags_eq
  | drawRefused val hwait => exact flagInv_raiseFault (hs.busy_done hwait.1) .rand
  | drawTaken val f hwait => exact (hs.set_rwait hwait.1 hwait.2.2 false).of_flags_eq

theorem State.FlagInv.step (hs : s.FlagInv) (h : step s = .next t) : t.FlagInv := by
  rcases step_cases h with ⟨-, hmove⟩ | ⟨e, rest, -, hmove⟩
  · exact hmove.flagInv hs
  · exact hmove.flagInv (hs.of_flags_eq)

end Flags

end Sys2Proof.Machine

open Sys2Proof Sys2Proof.Machine

/-- Settles O33: read off the moves of the event the step takes. -/
theorem registerWriters : Obligations.RegisterWriters := by
  intro s t r h hr
  rcases step_cases h with ⟨hsched, hmove⟩ | ⟨e, rest, hsched, hmove⟩
  · obtain hreset | ⟨v, hctrl, -⟩ | ⟨j, v, -, hlimb, -⟩ | ⟨i, -, hrun, hdec, hdest⟩ := hmove.register_writers hr
    · cases hreset
    · cases hctrl
    · cases hlimb
    · exact .inr (.inr (.inr ⟨i, .inl hsched, hrun, hdec, hdest⟩))
  · obtain rfl | ⟨v, rfl, hv⟩ | ⟨j, v, hj, rfl, hb, herr⟩ | ⟨i, rfl, hrun, hdec, hdest⟩ := hmove.register_writers hr
    · exact .inl ⟨rest, hsched⟩
    · exact .inr (.inl ⟨v, rest, hsched, hv⟩)
    · exact .inr (.inr (.inl ⟨j, v, rest, hj, hsched, hb, herr⟩))
    · exact .inr (.inr (.inr ⟨i, .inr ⟨rest, hsched⟩, hrun, hdec, hdest⟩))

/-- Settles O34: read off the same moves. -/
theorem resultFlagWriters : Obligations.ResultFlagWriters := by
  intro s t h ht
  rcases step_cases h with ⟨-, hmove⟩ | ⟨e, rest, hsched, hmove⟩
  · obtain hreset | ⟨v, hctrl, -⟩ | htest := hmove.t_writers ht
    · cases hreset
    · cases hctrl
    · exact .inr (.inr htest)
  · obtain rfl | ⟨v, rfl, hv⟩ | htest := hmove.t_writers ht
    · exact .inl ⟨rest, hsched⟩
    · exact .inr (.inl ⟨v, rest, hsched, hv⟩)
    · exact .inr (.inr htest)

/-- Settles O38: the seven implications are inductive together; `DONE` is clear wherever a fault or a `BUSY` is raised. -/
theorem stepKeepsFlagInvariants : Obligations.StepKeepsFlagInvariants :=
  ⟨fun L => (resetEngine_flagInv (s := State.resetOf L)).of_flags_eq, fun _ _ hs h => hs.step h⟩
end

section
/-! SUPPORT. An invisible pass before a visible step (R42, R310): every completion and every draw request discards the hidden
state it starts from, and a pass done early leaves the loop's result as it is. -/

namespace Sys2Proof.Machine

section
variable {W : Nat} {i : Instr} {f : InFlight} {s t : State}

/-- Two states that differ in the hidden state only. -/
def SameButHidden (s t : State) : Prop :=
  ∃ g, t = { s with hidden := g }

theorem SameButHidden.completeReg (h : SameButHidden s t) (rd : Reg) (v : Nat) :
    completeReg rd v t = completeReg rd v s := by
  obtain ⟨g, rfl⟩ := h
  rfl

theorem SameButHidden.completeFlag (h : SameButHidden s t) (b : Bool) : completeFlag b t = completeFlag b s := by
  obtain ⟨g, rfl⟩ := h
  rfl

theorem SameButHidden.requestDraw (h : SameButHidden s t) (b : Bounds) (f : InFlight) :
    requestDraw b f t = requestDraw b f s := by
  obtain ⟨g, rfl⟩ := h
  rfl

theorem SameButHidden.nextTrial (h : SameButHidden s t) (rounds k : Nat) (f : InFlight) :
    nextTrial rounds k f t = nextTrial rounds k f s := by
  simp only [Machine.nextTrial, h.requestDraw, h.completeFlag]

theorem SameButHidden.completeField (h : SameButHidden s t) (rd : Reg) (v : Nat) (f : InFlight) :
    completeField rd v f t = completeField rd v f s := by
  simp only [Machine.completeField, h.completeReg]

/-- A field command has no loop, so no pass (R120). -/
theorem passInFlight_of_field (hw : f.work = .field) : passInFlight f = f := by
  simp only [passInFlight, hw]

theorem completePow_pass (h : SameButHidden s t) {w : PowWork} (hw : f.work = .pow w) (rd : Reg) :
    completePow rd (passInFlight f) t = completePow rd f s := by
  simp only [completePow, passInFlight, hw, powFinish_powPass, h.completeReg]

theorem completeWitness_pass (h : SameButHidden s t) {w : WitnessWork} (hn : 2 ≤ f.n) (hw : f.work = .witness w) :
    completeWitness (passInFlight f) t = completeWitness f s := by
  simp only [completeWitness, passInFlight, hw, witnessFinish_witnessPass hn, h.completeFlag]

theorem advanceIsprime_pass (h : SameButHidden s t) {k : Nat} {trial : Option Trial} (hw : f.work = .isPrime k trial)
    (htrial : ∀ tr, trial = some tr → 2 ≤ f.n) (rounds : Nat) :
    advanceIsprime rounds (passInFlight f) t = advanceIsprime rounds f s := by
  cases trial with
  | none => simp only [advanceIsprime, passInFlight, hw, trialLoop, h.nextTrial, h.completeFlag]
  | some tr =>
    have hn := htrial tr rfl
    have hnext : nextTrial rounds k { f with work := .isPrime k (some { tr with work := witnessPass tr.a f.n tr.work }) } s =
        nextTrial rounds k f s := rfl
    simp only [advanceIsprime, passInFlight, hw, trialLoop, witnessFinish_witnessPass hn, h.nextTrial, h.completeFlag,
      hnext]

/-- The next visible step of a command is the same with a pass before it or without. -/
theorem commandAdvance_pass (h : SameButHidden s t) (hf : HiddenFits W i f) :
    commandAdvance i (passInFlight f) t = commandAdvance i f s := by
  cases i with
  | modred rd => rw [passInFlight_of_field hf.2]; exact h.completeField rd _ f
  | modadd rd => rw [passInFlight_of_field hf.2]; exact h.completeField rd _ f
  | modsub rd => rw [passInFlight_of_field hf.2]; exact h.completeField rd _ f
  | modmul rd => rw [passInFlight_of_field hf.2]; exact h.completeField rd _ f
  | powmod rd =>
    obtain ⟨-, w, hw, -⟩ := hf
    exact completePow_pass h hw rd
  | witness =>
    obtain ⟨hn, w, hw, -⟩ := hf
    exact completeWitness_pass h hn hw
  | isprime rm rounds =>
    obtain ⟨k, trial, hw, -, -, htrial⟩ := hf
    exact advanceIsprime_pass h hw (fun tr htr => (htrial tr htr).2.two_le) rounds

/-- A held reset leaves nothing running (R290). -/
theorem State.Inv.released_of_running (hs : s.Inv) (hrun : s.Running) : s.resetHeld = false := by
  cases hr : s.resetHeld with
  | false => rfl
  | true =>
    have hb : s.busy = false := by rw [hs.held_reset hr]; rfl
    exact absurd hrun.1 (by simp [hb])

theorem passStep_running (hrun : s.Running) (hf : s.hidden = some f) :
    passStep s = { s with hidden := some (passInFlight f) } := by
  simp only [passStep, engineState_of_running hrun, hf, Option.map_some]

end

end Sys2Proof.Machine

open Sys2Proof Sys2Proof.Machine

/-- Settles O37: the next visible step reads the hidden state only through values a pass leaves as they are. -/
theorem passesAreInvisible : Obligations.PassesAreInvisible := by
  intro s i rest hs hrun hdec hsched
  obtain ⟨f, hf⟩ := Option.isSome_iff_exists.1 (hs.busy_hidden.symm.trans hrun.1)
  have hfree := hs.released_of_running hrun
  have hcmd : s.Commanded i := ⟨hs, hfree, hs.flags.busy_done hrun.1, hdec⟩
  have hstep : step s = .next { s with hidden := some (passInFlight f), schedule := rest } := by
    rw [step_of_cons hsched, takeEvent_free (s := withSchedule rest s) _ hfree]
    exact congrArg _ (passStep_running (s := withSchedule rest s) hrun hf)
  refine ⟨_, hstep, rfl, hrun, ?_⟩
  calc exec i { s with hidden := some (passInFlight f), schedule := rest }
      = commandAdvance i (passInFlight f) { s with hidden := some (passInFlight f), schedule := rest } :=
        exec_running i hrun rfl
    _ = commandAdvance i f (withSchedule rest s) := commandAdvance_pass ⟨_, rfl⟩ (hcmd.hiddenFits hf)
    _ = exec i (withSchedule rest s) := (exec_running (s := withSchedule rest s) i hrun hf).symm
end

section
/-! SUPPORT. The single steps of the host and the engine: which arm of the step an event reaches, what the accessed words are,
and the reset state. -/

namespace Sys2Proof.Machine

/-! ## The events one by one -/

section Steps
variable {s : State}

theorem step_free {e : Event} {rest : List Event} (hfree : s.resetHeld = false) (hsched : s.schedule = e :: rest) :
    step s = freeEvent e (withSchedule rest s) := by
  rw [step_of_cons hsched, takeEvent_free (s := withSchedule rest s) e hfree]

theorem step_free_nil (hfree : s.resetHeld = false) (hsched : s.schedule = []) : step s = engineStep s := by
  rw [step_of_nil hsched, takeEvent_free .engine hfree, freeEvent]

theorem hostWrite_cmd (w : Word) (s : State) : hostWrite .word cmdAddr w s = commandWrite w s := rfl

theorem hostWrite_ctrl (v : Word) (s : State) :
    hostWrite .word ctrlAddr v s = .next (withReply writeOk (controlWrite v s)) := rfl

theorem controlWrite_of_reset_bit {v : Word} (hv : v.getLsbD 1 = true) (s : State) : controlWrite v s = resetEngine s :=
  if_pos hv

theorem controlWrite_of_no_reset_bit {v : Word} (hv : v.getLsbD 1 = false) (s : State) :
    controlWrite v s = { s with ie := v.getLsbD 0, done := s.done && !v.getLsbD 2 } := by
  have hdone : (if v.getLsbD 2 then false else s.done) = (s.done && !v.getLsbD 2) := by
    cases v.getLsbD 2 <;> simp
  rw [controlWrite, if_neg (Bool.eq_false_iff.1 hv), hdone]

theorem commandWrite_idle (w : Word) (h : s.Idle) : commandWrite w s = acceptCommand w (withReply writeOk s) := by
  simp [commandWrite, h.1, h.2.2]

/-- A `CMD` write that finds the engine idle is answered `ok` and is an acceptance (R44, R254). -/
theorem step_cmd_write_idle {w : Word} {rest : List Event} (h : s.Idle) (hfree : s.resetHeld = false)
    (hsched : s.schedule = .write .word cmdAddr w :: rest) :
    step s = acceptCommand w (withReply writeOk (withSchedule rest s)) := by
  rw [step_free hfree hsched, freeEvent, hostWrite_cmd, commandWrite_idle (s := withSchedule rest s) w h]

theorem step_ctrl_write {v : Word} {rest : List Event} (hfree : s.resetHeld = false)
    (hsched : s.schedule = .write .word ctrlAddr v :: rest) :
    step s = .next (withReply writeOk (controlWrite v (withSchedule rest s))) := by
  rw [step_free hfree hsched, freeEvent, hostWrite_ctrl]

theorem acceptCommand_ok {w : Word} {i : Instr} (hdec : decode w = .ok i) (s : State) :
    acceptCommand w s = exec i (latchCommand w s) := by
  simp only [acceptCommand, hdec]

theorem acceptCommand_error {w : Word} {e : Illegal} (hdec : decode w = .error e) (s : State) :
    acceptCommand w s = .next (raiseFault .illegal (latchCommand w s)) := by
  simp only [acceptCommand, hdec]

theorem engineStep_running {i : Instr} (h : s.Running) (hdec : decode s.cmdreg = .ok i) : engineStep s = exec i s := by
  simp only [engineStep, engineState_of_running h, hdec]

theorem engineStep_of_not_running (h : engineState s ≠ .running) : engineStep s = .next s := by
  unfold engineStep
  cases he : engineState s with
  | running => exact absurd he h
  | idle => rfl
  | waiting => rfl
  | faulted => rfl

theorem passStep_of_not_running (h : engineState s ≠ .running) : passStep s = s := by
  unfold passStep
  cases he : engineState s with
  | running => exact absurd he h
  | idle => rfl
  | waiting => rfl
  | faulted => rfl

theorem engineState_ne_running (h : s.Idle ∨ s.Waiting ∨ s.err = true) : engineState s ≠ .running := by
  rcases h with h | h | h
  · simp [engineState_of_idle h]
  · simp [engineState_of_waiting h]
  · simp [engineState_of_err h]

end Steps

/-! ## The fixed entry `withFetchWord` (log 4) -/

theorem decode_of_decodeTableWord {w : Nat} {i : Instr} (h : decodeTableWord 32 w = some i) :
    decode (BitVec.ofNat 32 (w % 2 ^ 32)) = .ok i := by
  rw [decodeTableWord, if_pos (Nat.mod_lt w (Nat.two_pow_pos 32))] at h
  cases hdec : decode (BitVec.ofNat 32 (w % 2 ^ 32)) with
  | error e => rw [hdec] at h; cases h
  | ok j => rw [hdec] at h; cases h; rfl

/-! ## The words the host reads (R35, R38) -/

theorem toNat_append_eq_add {m n : Nat} (x : BitVec m) (y : BitVec n) :
    (x ++ y).toNat = x.toNat * 2 ^ n + y.toNat := by
  rw [BitVec.toNat_append, ← Nat.shiftLeft_add_eq_or_of_lt y.isLt, Nat.shiftLeft_eq]

/-! ## The reset state (R47) -/

theorem resetOf_flagInv (L : Nat) : (State.resetOf L).FlagInv :=
  (resetEngine_flagInv (s := State.resetOf L)).of_flags_eq

theorem readReg_resetOf (L : Nat) (r : Reg) : readReg (State.resetOf L) r = 0 :=
  readReg_resetEngine (State.resetOf L) r

theorem resetOf_inv {L : Nat} (hpos : 1 ≤ L) (hle : L ≤ Config.maxLimbs) : (State.resetOf L).Inv :=
  State.inv_of_no_command hpos hle (resetOf_flagInv L)
    (fun r => (readReg_resetOf L r).symm ▸ Nat.two_pow_pos _) rfl rfl rfl rfl nofun

end Sys2Proof.Machine

open Sys2Proof Sys2Proof.Machine

/-- Settles O7: the event is an acceptance of its word, and its word decodes. -/
theorem stepRunsAcceptedCommand : Obligations.StepRunsAcceptedCommand := by
  intro s w i rest hidle hfree hdec hsched
  rw [step_cmd_write_idle hidle hfree hsched, acceptCommand_ok hdec]
  rfl

/-- Settles O8: both the empty schedule and the engine event reach `engineStep`, which runs the command in `CMDREG`. -/
theorem stepRunsCommandInFlight : Obligations.StepRunsCommandInFlight := by
  intro s i hrun hfree hdec
  refine ⟨fun hsched => ?_, fun rest hsched => ?_⟩
  · rw [step_free_nil hfree hsched, engineStep_running hrun hdec]
  · rw [step_free hfree hsched, freeEvent, engineStep_running (s := withSchedule rest s) hrun hdec]
    rfl

/-- Settles O9: the same acceptance, where decoding refuses the word. -/
theorem illegalWordFaults : Obligations.IllegalWordFaults := by
  intro s w e rest hidle hfree hdec hsched
  rw [step_cmd_write_idle hidle hfree hsched, acceptCommand_error hdec]
  rfl

/-- Settles O25: outside the running row neither the engine's step nor a pass has an effect. -/
theorem engineHoldsWhenNotRunning : Obligations.EngineHoldsWhenNotRunning := by
  intro s hs hfree
  refine ⟨fun e rest he hsched => ?_, fun hsched => ?_⟩
  · have hne : engineState (withSchedule rest s) ≠ .running := engineState_ne_running hs
    rw [step_free hfree hsched]
    rcases he with rfl | rfl
    · exact engineStep_of_not_running hne
    · exact congrArg _ (passStep_of_not_running hne)
  · rw [step_free_nil hfree hsched, engineStep_of_not_running (engineState_ne_running hs)]

/-- Settles O40: no command is in flight, and 0 fits every register. -/
theorem resetMeetsMachineInvariant : Obligations.ResetMeetsMachineInvariant :=
  ⟨fun _ hpos hle => resetOf_inv hpos hle, resetOf_inv (by decide) (by decide)⟩

/-- Settles O43: an appended word is the sum of its parts at their bit weights. -/
theorem statusWordValue : Obligations.StatusWordValue := by
  intro s
  simp only [statusWord, toNat_append_eq_add, BitVec.toNat_ofBool, BitVec.toNat_ofNat]
  omega

/-- Settles O44: the same sum; `L` fits its 16 bits. -/
theorem capsWordValue : Obligations.CapsWordValue := by
  intro s hL
  have hfits : s.limbs % 2 ^ 16 = s.limbs := Nat.mod_eq_of_lt (by omega)
  have hversion : Config.version.toNat = 1 := rfl
  simp only [capsWord, toNat_append_eq_add, BitVec.toNat_ofNat, hversion, Config.nreg, hfits]
  omega

/-- Settles O51: the `CTRL` write without its reset bit. -/
theorem controlWriteSetsEnable : Obligations.ControlWriteSetsEnable := by
  intro s v rest hfree hv hsched
  rw [step_ctrl_write hfree hsched, controlWrite_of_no_reset_bit hv]
  rfl

/-- Settles O52: the `CTRL` write with its reset bit, the reset input being released. -/
theorem softResetResetsEverything : Obligations.SoftResetResetsEverything := by
  intro s v rest hfree hv hsched
  rw [step_ctrl_write hfree hsched, controlWrite_of_reset_bit hv]
  simp [resetEngine, State.resetOf, withReply, hfree]

/-- Settles O56: the placed write finds an idle engine. -/
theorem fetchWordRunsNext : Obligations.FetchWordRunsNext := by
  intro s w i h
  have hword : BitVec.ofNat 32 (w % 2 ^ 32) = BitVec.ofNat 32 w := by
    apply BitVec.eq_of_toNat_eq
    simp
  have hdec := decode_of_decodeTableWord h
  rw [stepRunsAcceptedCommand (s.withFetchWord 32 w) _ i s.schedule ⟨rfl, rfl, rfl⟩ rfl hdec rfl, hword]
  rfl
end

section
/-! SUPPORT. The host port (20_memory.md): the address map read forwards, the refused and the gated writes, the limbs of a
register, and the host's lines `LDR`, `STR` and `WAIT` as runs of their transactions. -/

namespace Sys2Proof.Machine

/-! ## The address map read forwards (R64, R66) -/

theorem windowEntry_limb {L j : Nat} (i : Reg) (hj : j < L) : windowEntry L (L * i + j) = some (.limb i j) := by
  have hk : L * i + j < L * Config.nreg := by
    calc L * i + j < L * (i + 1) := by rw [Nat.mul_add_one]; omega
      _ ≤ L * Config.nreg := Nat.mul_le_mul_left L i.isLt
  have hdiv : (L * i + j) / L = i := by
    rw [Nat.mul_add_div (by omega), Nat.div_eq_of_lt hj, Nat.add_zero]
  have hmod : (L * i + j) % L = j := by
    rw [Nat.mul_add_mod, Nat.mod_eq_of_lt hj]
  simp only [windowEntry, hk, dif_pos, hdiv, hmod]

theorem limbAddr_eq (L : Nat) (i : Reg) (j : Nat) : limbAddr L i j = 0x100 + 4 * (L * i + j) := rfl

theorem portEntry_limbAddr {L j : Nat} (i : Reg) (hj : j < L) :
    portEntry .word L (limbAddr L i j) = some (.limb i j) := by
  have haligned : ¬ limbAddr L i j % 4 ≠ 0 := by rw [limbAddr_eq]; omega
  have hne : ∀ {a : Nat}, a < 0x100 → limbAddr L i j ≠ a := by rw [limbAddr_eq]; omega
  have hbase : ¬ limbAddr L i j < Config.regBase := Nat.not_lt.2 (Nat.le_add_right _ _)
  have hk : (limbAddr L i j - Config.regBase) / 4 = L * i + j := by
    rw [limbAddr, Nat.add_sub_cancel_left, Nat.mul_div_cancel_left _ (by decide)]
  rw [portEntry, mapEntry, if_neg haligned, if_neg (hne (by decide)), if_neg (hne (by decide)),
    if_neg (hne (by decide)), if_neg (hne (by decide)), if_neg hbase, hk, windowEntry_limb i hj]

/-- Every limb stands below the end of the window. -/
theorem limbAddr_lt {L j : Nat} (i : Reg) (hj : j < L) : limbAddr L i j < 0x100 + 32 * L := by
  have hi : L * i ≤ L * 7 := Nat.mul_le_mul_left L (Nat.le_of_lt_succ i.isLt)
  rw [limbAddr_eq]
  omega

/-- Where the entries of the map stand: aligned, outside the hole and below the end of the window. -/
theorem entryAddr_of_mapped {width : AccessWidth} {L addr : Nat} {e : MapEntry} (h : portEntry width L addr = some e) :
    entryAddr L e % 4 = 0 ∧ (entryAddr L e < 0x010 ∨ 0x100 ≤ entryAddr L e) ∧ entryAddr L e < 0x100 + 32 * L := by
  cases e with
  | ctrl => dsimp only [entryAddr, ctrlAddr]; omega
  | status => dsimp only [entryAddr, statusAddr]; omega
  | cmd => dsimp only [entryAddr, cmdAddr]; omega
  | caps => dsimp only [entryAddr, capsAddr]; omega
  | limb i j =>
    have hlt := limbAddr_lt i (portEntry_limb_lt h)
    dsimp only [entryAddr]
    rw [limbAddr_eq] at hlt ⊢
    omega

/-- R64, R70, R71: what no entry of the map answers to. -/
theorem portEntry_eq_none {width : AccessWidth} {L addr : Nat}
    (h : width ≠ .word ∨ addr % 4 ≠ 0 ∨ (0x010 ≤ addr ∧ addr < 0x100) ∨ 0x100 + 32 * L ≤ addr) :
    portEntry width L addr = none := by
  rw [Option.eq_none_iff_forall_ne_some]
  intro e he
  have hplace := entryAddr_of_mapped he
  obtain ⟨hwidth, haddr⟩ := portEntry_eq_some he
  rw [← haddr] at hplace
  replace h := h.resolve_left fun hne => hne hwidth
  omega

/-! ## Reads (R61) -/

section Reads
variable {s : State} {width : AccessWidth} {addr : Nat}

theorem readReply_of_mapped {e : MapEntry} (h : portEntry width s.limbs addr = some e) :
    readReply width addr s = ⟨.ok, some (readEntry s e)⟩ := by
  simp only [readReply, h]

theorem readReply_of_unmapped (h : portEntry width s.limbs addr = none) :
    readReply width addr s = ⟨.buserr, some 0⟩ := by
  simp only [readReply, h]

theorem readReply_limbAddr {j : Nat} (i : Reg) (hj : j < s.limbs) :
    readReply .word (limbAddr s.limbs i j) s = ⟨.ok, some (readLimb s i j)⟩ :=
  readReply_of_mapped (portEntry_limbAddr i hj)

theorem readReply_statusAddr (s : State) : readReply .word statusAddr s = ⟨.ok, some (statusWord s)⟩ := rfl

theorem step_read {rest : List Event} (hfree : s.resetHeld = false) (hsched : s.schedule = .read width addr :: rest) :
    step s = .next { s with schedule := rest, reply := some (readReply width addr s) } := by
  rw [step_free hfree hsched]
  rfl

theorem ctrlWord_eq_ofNat (s : State) : ctrlWord s = BitVec.ofNat 32 s.ie.toNat := by
  unfold ctrlWord
  cases s.ie <;> rfl

theorem waitOver_statusWord (s : State) : waitOver (statusWord s) = !s.busy := by
  rw [waitOver, statusWord, BitVec.getLsbD_append]
  simp

end Reads

/-! ## Writes: refused, gated, admitted (R62, R67, R68) -/

section Writes
variable {s : State} {addr : Nat} {d : Word} {rest : List Event}

theorem step_write {width : AccessWidth} (hfree : s.resetHeld = false)
    (hsched : s.schedule = .write width addr d :: rest) :
    step s = hostWrite width addr d (withSchedule rest s) := by
  rw [step_free hfree hsched, freeEvent]

theorem hostWrite_of_unmapped {width : AccessWidth} (h : portEntry width s.limbs addr = none) :
    hostWrite width addr d s = .next (withReply writeBuserr s) := by
  simp only [hostWrite, h]

theorem hostWrite_limbAddr {j : Nat} (i : Reg) (hj : j < s.limbs) :
    hostWrite .word (limbAddr s.limbs i j) d s = .next (windowWrite i j d s) := by
  simp only [hostWrite, portEntry_limbAddr i hj]

/-- An address whose writes the gates of R67 and R68 stand before: `CMD`, or a limb of the window. -/
def IsGated (L addr : Nat) : Prop :=
  addr = cmdAddr ∨ ∃ (i : Reg) (j : Nat), j < L ∧ addr = limbAddr L i j

theorem hostWrite_gated_of_err (ha : IsGated s.limbs addr) (herr : s.err = true) :
    hostWrite .word addr d s = .next (withReply writeBuserr s) := by
  obtain rfl | ⟨i, j, hj, rfl⟩ := ha
  · rw [hostWrite_cmd, commandWrite, if_pos herr]
  · rw [hostWrite_limbAddr i hj, windowWrite, if_pos herr]

theorem hostWrite_gated_of_busy (ha : IsGated s.limbs addr) (herr : s.err = false) (hbusy : s.busy = true) :
    hostWrite .word addr d s = .next (withReply writeBuserr (raiseFault .busy s)) := by
  have hne : ¬ s.err = true := Bool.eq_false_iff.1 herr
  obtain rfl | ⟨i, j, hj, rfl⟩ := ha
  · rw [hostWrite_cmd, commandWrite, if_neg hne, if_pos hbusy]
  · rw [hostWrite_limbAddr i hj, windowWrite, if_neg hne, if_pos hbusy]

theorem windowWrite_idle (h : s.Idle) (i : Reg) (j : Nat) (d : Word) :
    windowWrite i j d s = withReply writeOk (writeLimb i j d s) := by
  obtain ⟨hbusy, -, herr⟩ := h
  simp [windowWrite, hbusy, herr]

theorem step_limb_write_idle {i : Reg} {j : Nat} (h : s.Idle) (hfree : s.resetHeld = false) (hj : j < s.limbs)
    (hsched : s.schedule = .write .word (limbAddr s.limbs i j) d :: rest) :
    step s = .next (withReply writeOk (writeLimb i j d (withSchedule rest s))) := by
  rw [step_write hfree hsched, ← windowWrite_idle (s := withSchedule rest s) h]
  exact hostWrite_limbAddr i hj

end Writes

/-! ## The limbs of a value (R66, R69) -/

theorem toNat_limbOf (j v : Nat) : (limbOf j v).toNat = v / 2 ^ (32 * j) % 2 ^ 32 := BitVec.toNat_ofNat _ _

theorem getLsbD_limbOf (j v n : Nat) : (limbOf j v).getLsbD n = (decide (n < 32) && v.testBit (n + 32 * j)) := by
  rw [limbOf, BitVec.getLsbD_ofNat, Nat.testBit_div_two_pow]

/-- A limb write bit by bit: the datum inside the limb, the old value outside it. -/
theorem testBit_setLimb (j : Nat) (d : Word) (v n : Nat) :
    (setLimb j d v).testBit n =
      if 32 * j ≤ n ∧ n < 32 * (j + 1) then d.getLsbD (n - 32 * j) else v.testBit n := by
  have hform : setLimb j d v = 2 ^ (32 * j) * (2 ^ 32 * (v / 2 ^ (32 * (j + 1))) + d.toNat) + v % 2 ^ (32 * j) := by
    have hlimb : 2 ^ (32 * (j + 1)) = 2 ^ (32 * j) * 2 ^ 32 := by rw [← Nat.pow_add, Nat.mul_add_one]
    unfold setLimb
    generalize v / 2 ^ (32 * (j + 1)) = high
    rw [hlimb]
    ring
  rw [hform, Nat.testBit_two_pow_mul_add _ (Nat.mod_lt _ (Nat.two_pow_pos _)), Nat.testBit_two_pow_mul_add _ d.isLt,
    Nat.testBit_mod_two_pow, Nat.testBit_div_two_pow]
  by_cases hlow : n < 32 * j
  · simp [hlow, Nat.not_le.2 hlow]
  · by_cases hin : n < 32 * (j + 1)
    · have hlt : n - 32 * j < 32 := by omega
      simp [hlow, hin, hlt, Nat.not_lt.1 hlow, BitVec.testBit_toNat]
    · have hge : ¬ n - 32 * j < 32 := by omega
      have hpos : n - 32 * j - 32 + 32 * (j + 1) = n := by omega
      simp [hlow, hin, hge, hpos]

theorem limbOf_setLimb_same (j : Nat) (d : Word) (v : Nat) : limbOf j (setLimb j d v) = d := by
  refine BitVec.eq_of_getLsbD_eq fun n hn => ?_
  have hin : 32 * j ≤ n + 32 * j ∧ n + 32 * j < 32 * (j + 1) := by omega
  rw [getLsbD_limbOf, testBit_setLimb, if_pos hin, Nat.add_sub_cancel, decide_eq_true hn, Bool.true_and]

theorem limbOf_setLimb_other {j k : Nat} (h : k ≠ j) (d : Word) (v : Nat) :
    limbOf k (setLimb j d v) = limbOf k v := by
  refine BitVec.eq_of_getLsbD_eq fun n hn => ?_
  have hout : ¬ (32 * j ≤ n + 32 * k ∧ n + 32 * k < 32 * (j + 1)) := by omega
  rw [getLsbD_limbOf, getLsbD_limbOf, testBit_setLimb, if_neg hout]

theorem limbOf_succ (j v : Nat) : limbOf (j + 1) v = limbOf j (v / 2 ^ 32) := by
  rw [limbOf, limbOf, Nat.div_div_eq_div_mul, ← Nat.pow_add, Nat.mul_add_one, Nat.add_comm]

/-- The first `L` limbs of a value make up its lowest `32 * L` bits. -/
theorem limbsValue_limbOf (L v : Nat) :
    limbsValue ((List.range L).map fun j => limbOf j v) = v % 2 ^ (32 * L) := by
  induction L generalizing v with
  | zero => simp [limbsValue, Nat.mod_one]
  | succ L ih =>
    have htail : (List.range L).map (fun j => limbOf (j + 1) v) = (List.range L).map fun j => limbOf j (v / 2 ^ 32) :=
      List.map_congr_left fun j _ => limbOf_succ j v
    have hpow : 2 ^ (32 * (L + 1)) = 2 ^ 32 * 2 ^ (32 * L) := by rw [← Nat.pow_add, Nat.mul_add_one, Nat.add_comm]
    rw [List.range_succ_eq_map, List.map_cons, List.map_map]
    calc limbsValue (limbOf 0 v :: (List.range L).map fun j => limbOf (j + 1) v)
        = v % 2 ^ 32 + 2 ^ 32 * (v / 2 ^ 32 % 2 ^ (32 * L)) := by
          rw [limbsValue, htail, ih, toNat_limbOf, Nat.mul_zero, Nat.pow_zero, Nat.div_one]
      _ = v % 2 ^ (32 * (L + 1)) := by rw [hpow, Nat.mod_mul]

/-! ## LDR (R82) -/

/-- The value `x` with its `m` lowest limbs replaced by those of `v`: a register after `m` writes of `LDR`. -/
def withLowLimbs (m v x : Nat) : Nat :=
  2 ^ (32 * m) * (x / 2 ^ (32 * m)) + v % 2 ^ (32 * m)

theorem testBit_withLowLimbs (m v x n : Nat) :
    (withLowLimbs m v x).testBit n = if n < 32 * m then v.testBit n else x.testBit n := by
  rw [withLowLimbs, Nat.testBit_two_pow_mul_add _ (Nat.mod_lt _ (Nat.two_pow_pos _)), Nat.testBit_mod_two_pow,
    Nat.testBit_div_two_pow]
  by_cases hlow : n < 32 * m
  · simp [hlow]
  · have hpos : n - 32 * m + 32 * m = n := by omega
    simp [hlow, hpos]

theorem withLowLimbs_zero (v x : Nat) : withLowLimbs 0 v x = x := by
  simp [withLowLimbs, Nat.mod_one]

theorem setLimb_withLowLimbs (m v x : Nat) :
    setLimb m (limbOf m v) (withLowLimbs m v x) = withLowLimbs (m + 1) v x := by
  refine Nat.eq_of_testBit_eq fun n => ?_
  rw [testBit_setLimb, testBit_withLowLimbs, testBit_withLowLimbs, getLsbD_limbOf]
  by_cases hin : 32 * m ≤ n ∧ n < 32 * (m + 1)
  · have hlt : n - 32 * m < 32 := by omega
    simp [hin, hlt]
  · have hiff : n < 32 * m ↔ n < 32 * (m + 1) := by omega
    simp [hin, hiff]

theorem withLowLimbs_all {L v x : Nat} (hv : v < 2 ^ (32 * L)) (hx : x < 2 ^ (32 * L)) : withLowLimbs L v x = v := by
  rw [withLowLimbs, Nat.div_eq_of_lt hx, Nat.mod_eq_of_lt hv, Nat.mul_zero, Nat.zero_add]

theorem steps_succ_last {m : Nat} {s t : State} (h : steps m s = .next t) : steps (m + 1) s = step t := by
  induction m generalizing s with
  | zero =>
    cases h
    rw [steps]
    cases step t <;> rfl
  | succ m ih =>
    rw [steps] at h ⊢
    cases hs : step s with
    | next u => rw [hs] at h; exact ih h
    | fault r => rw [hs] at h; cases h
    | refused r => rw [hs] at h; cases h

/-- The first `m` of the writes of `LDR ri, v`. -/
def ldrFirstWrites (L : Nat) (i : Reg) (v m : Nat) : List Event :=
  (List.range m).map fun j => scriptWr (limbAddr L i j) (limbOf j v)

theorem ldrWrites_eq_first (L : Nat) (i : Reg) (v : Nat) : ldrWrites L i v = ldrFirstWrites L i v L := rfl

theorem ldrFirstWrites_succ_append (L : Nat) (i : Reg) (v m : Nat) (rest : List Event) :
    ldrFirstWrites L i v (m + 1) ++ rest =
      ldrFirstWrites L i v m ++ .write .word (limbAddr L i m) (limbOf m v) :: rest := by
  rw [ldrFirstWrites, List.range_succ, List.map_append, List.append_assoc]
  rfl

/-- The state after `m` writes of `LDR ri, v` that found the engine in state `s`. -/
def afterLdrWrites (i : Reg) (v m : Nat) (rest : List Event) (s : State) : State :=
  { s with
    regs := s.regs.set i (withLowLimbs m v (readReg s i))
    schedule := rest
    reply := if m = 0 then s.reply else some writeOk }

theorem afterLdrWrites_zero {s : State} {rest : List Event} (hsched : s.schedule = rest) (i : Reg) (v : Nat) :
    afterLdrWrites i v 0 rest s = s := by
  subst hsched
  rw [afterLdrWrites, withLowLimbs_zero, readReg, Fin.getElem_fin, Vector.set_getElem_self, if_pos rfl]

theorem afterLdrWrites_succ (i : Reg) (v m : Nat) (rest rest' : List Event) (s : State) :
    withReply writeOk (writeLimb i m (limbOf m v) (withSchedule rest (afterLdrWrites i v m rest' s))) =
      afterLdrWrites i v (m + 1) rest s := by
  simp [afterLdrWrites, writeLimb, writeReg, readReg, withSchedule, withReply, setLimb_withLowLimbs]

/-- R72: limb 0 first, each write of `LDR` finds the engine idle and adds its limb. -/
theorem steps_ldrWrites {s : State} (hidle : s.Idle) (hfree : s.resetHeld = false) (i : Reg) (v : Nat) {m : Nat}
    (hm : m ≤ s.limbs) {rest : List Event} (hsched : s.schedule = ldrFirstWrites s.limbs i v m ++ rest) :
    steps m s = .next (afterLdrWrites i v m rest s) := by
  induction m generalizing rest with
  | zero => exact congrArg _ (afterLdrWrites_zero (rest := rest) hsched i v).symm
  | succ m ih =>
    rw [ldrFirstWrites_succ_append] at hsched
    rw [steps_succ_last (ih (Nat.le_of_succ_le hm) hsched),
      step_limb_write_idle (s := afterLdrWrites i v m _ s) hidle hfree hm rfl, afterLdrWrites_succ]

/-! ## The lines of the host (R82, R106) -/

/-- A run that first looks at its session. -/
theorem hostRun_get_bind {α : Type} (f : Session → HostRun α) (h : Session) :
    (get >>= f).run.run h = (f h).run.run h := rfl

/-- Reads with nothing between answer, one after the other, what the map gives in the one state they all find. -/
theorem hostAccesses_reads_quiet (addrs : List Nat) {h : Session} (hb : h.between = [])
    (hfree : h.engine.resetHeld = false) :
    ∃ r, (hostAccesses (addrs.map scriptRd)).run.run h =
      (.ok (addrs.map fun addr => readReply .word addr h.engine), { h with engine := { h.engine with reply := r } }) := by
  induction addrs generalizing h with
  | nil => exact ⟨h.engine.reply, rfl⟩
  | cons addr addrs ih =>
    obtain ⟨r, hr⟩ := ih (h := { h with engine := withReply (readReply .word addr h.engine) h.engine }) hb hfree
    refine ⟨r, ?_⟩
    rw [List.map_cons, hostAccesses, hostRun_bind, hostAccess_read_quiet addr hb hfree]
    dsimp only
    rw [hostRun_bind, hr]
    rfl

theorem limbsValue_readLimb {s : State} {i : Reg} (hlt : readReg s i < 2 ^ (32 * s.limbs)) :
    limbsValue ((List.range s.limbs).map (readLimb s i)) = readReg s i :=
  (limbsValue_limbOf s.limbs (readReg s i)).trans (Nat.mod_eq_of_lt hlt)

theorem replyDatum_limbs (s : State) (i : Reg) :
    (List.range s.limbs).map (fun j => replyDatum (readReply .word (limbAddr s.limbs i j) s)) =
      (List.range s.limbs).map (readLimb s i) :=
  List.map_congr_left fun j hj => by rw [readReply_limbAddr i (List.mem_range.1 hj)]; rfl

theorem scriptStr_eq_map (L : Nat) (i : Reg) : scriptStr L i = ((List.range L).map (limbAddr L i)).map scriptRd :=
  List.map_map.symm

theorem hostStr_quiet {i : Reg} {h : Session} (hb : h.between = []) (hfree : h.engine.resetHeld = false)
    (hlt : readReg h.engine i < 2 ^ (32 * h.engine.limbs)) :
    ∃ r, (hostStr i).run.run h = (.ok (readReg h.engine i), { h with engine := { h.engine with reply := r } }) := by
  obtain ⟨r, hr⟩ := hostAccesses_reads_quiet ((List.range h.engine.limbs).map (limbAddr h.engine.limbs i)) hb hfree
  have hvalue : limbsValue ((((List.range h.engine.limbs).map (limbAddr h.engine.limbs i)).map
      fun addr => readReply .word addr h.engine).map replyDatum) = readReg h.engine i := by
    rw [List.map_map, List.map_map]
    exact (congrArg limbsValue (replyDatum_limbs h.engine i)).trans (limbsValue_readLimb hlt)
  refine ⟨r, ?_⟩
  rw [hostStr, hostRun_get_bind, hostRun_bind, scriptStr_eq_map, hr]
  exact Prod.ext (congrArg Except.ok hvalue) rfl

theorem hostLdr_of_too_wide {v : Nat} {h : Session} (hv : 2 ^ (32 * h.engine.limbs) ≤ v) (i : Reg) :
    (hostLdr i v).run.run h = (.error .noEncoding, h) := by
  have hnone : scriptLdr h.engine.limbs i v = none := if_neg (Nat.not_lt.2 hv)
  rw [hostLdr, hostRun_get_bind, hnone, hostExpand_none]

theorem hostCmd_of_no_encoding {c : Instr} (hc : c.wellFormed = false) (h : Session) :
    (hostCmd c).run.run h = (.error .noEncoding, h) := by
  simp only [hostCmd, scriptCmd, hc, Bool.false_eq_true, if_false, Option.map_none, hostExpand_none]

/-- A `WAIT` that ends leaves the engine in the state its last poll read. -/
theorem hostWaitLoop_ok {polls : Nat} {h h' : Session} {w : Word} (hx : (hostWaitLoop polls).run.run h = (.ok w, h')) :
    w = statusWord h'.engine ∧ h'.engine.busy = false ∧ h'.engine.reply = some ⟨.ok, some w⟩ := by
  induction polls generalizing h with
  | zero => cases hx
  | succ polls ih =>
    rw [hostWaitLoop, hostRun_bind] at hx
    rcases hp : (hostAccess scriptPoll).run.run h with ⟨_ | r, h₁⟩
    · rw [hp] at hx; cases hx
    · obtain ⟨hr, hreply, -⟩ := hostAccess_read_ok hp
      rw [readReply_statusAddr] at hr
      subst hr
      rw [hp] at hx
      by_cases hover : waitOver (statusWord h₁.engine) = true
      · have hbusy : h₁.engine.busy = false := by rwa [waitOver_statusWord, Bool.not_eq_true'] at hover
        simp only [replyDatum, Option.getD_some, hover, if_true] at hx
        cases hx
        exact ⟨rfl, hbusy, hreply⟩
      · simp only [replyDatum, Option.getD_some, hover] at hx
        exact ih hx

theorem hostWait_ok {h h' : Session} {w : Word} (hx : hostWait.run.run h = (.ok w, h')) :
    w = statusWord h'.engine ∧ h'.engine.busy = false ∧ h'.engine.reply = some ⟨.ok, some w⟩ := by
  rw [hostWait, hostRun_get_bind] at hx
  exact hostWaitLoop_ok hx

end Sys2Proof.Machine

open Sys2Proof Sys2Proof.Machine

/-- Settles O42: the answer is what the map gives, entry by entry. -/
theorem readAnswers : Obligations.ReadAnswers := by
  intro s width addr rest hfree hsched
  refine ⟨_, step_read hfree hsched, ?ctrl, ?status, ?cmd, ?caps, ?limb, fun h => ?unmapped⟩
  case ctrl =>
    rintro rfl rfl
    rw [readReply_of_mapped (e := .ctrl) rfl, readEntry, ctrlWord_eq_ofNat]
  case status =>
    rintro rfl rfl
    rfl
  case cmd =>
    rintro rfl rfl
    rfl
  case caps =>
    rintro rfl rfl
    rfl
  case limb =>
    rintro i j rfl hj rfl
    exact readReply_limbAddr i hj
  case unmapped => exact readReply_of_unmapped (portEntry_eq_none h)

/-- Settles O45: the written limb is the datum, and no other limb of the value changes. -/
theorem windowWriteStoresLimb : Obligations.WindowWriteStoresLimb := by
  intro s i j d rest hidle hfree hj hsched
  have hreg : readReg (withReply writeOk (writeLimb i j d (withSchedule rest s))) i = setLimb j d (readReg s i) :=
    readReg_writeReg_same _ _ _
  refine ⟨_, step_limb_write_idle hidle hfree hj hsched, rfl, ?same, fun k hk => ?other, fun r hr => ?registers⟩
  case same => rw [hreg, ← toNat_limbOf, limbOf_setLimb_same]
  case other => rw [hreg, ← toNat_limbOf, limbOf_setLimb_other hk, toNat_limbOf]
  case registers => exact readReg_writeReg_other s i r _ hr

/-- Settles O46: the limbs of a value make up its lowest `32 * L` bits, and the register has no others. -/
theorem registerIsSumOfLimbs : Obligations.RegisterIsSumOfLimbs :=
  fun _ _ hlt => limbsValue_readLimb hlt

/-- Settles O47: after all `L` writes every limb of the register is one of the value. -/
theorem ldrLoadsTheValue : Obligations.LdrLoadsTheValue := by
  intro s i v evs rest hidle hfree hL hlt hldr hsched
  rw [scriptLdr, Option.ite_none_right_eq_some] at hldr
  obtain ⟨hv, ⟨⟩⟩ := hldr
  rw [ldrWrites_eq_first] at hsched
  rw [steps_ldrWrites hidle hfree i v (Nat.le_refl _) hsched, afterLdrWrites, withLowLimbs_all hv hlt,
    if_neg (Nat.ne_of_gt hL)]

/-- Settles O59: `STR` reads limb by limb, a refused line expands to nothing, and `WAIT` ends with the poll that says so. -/
theorem hostLinesGiveTheirValues : Obligations.HostLinesGiveTheirValues :=
  fun i h => ⟨hostStr_quiet, fun _ hv => hostLdr_of_too_wide hv i, fun _ hc => hostCmd_of_no_encoding hc h,
    fun _ _ => hostWait_ok⟩

/-- Settles O48: the busy gate of `CMD` and of the window. -/
theorem writeWhileBusyFaults : Obligations.WriteWhileBusyFaults := by
  intro s addr d rest hbusy herr hfree haddr hsched
  rw [step_write hfree hsched, hostWrite_gated_of_busy (s := withSchedule rest s) haddr herr hbusy]
  rfl

/-- Settles O49: the fault gate of `CMD` and of the window. -/
theorem writeWhileFaultedDropped : Obligations.WriteWhileFaultedDropped := by
  intro s addr d rest herr hfree haddr hsched
  rw [step_write hfree hsched, hostWrite_gated_of_err (s := withSchedule rest s) haddr herr]
  rfl

/-- Settles O50: `STATUS` and `CAPS` are read only; at every other of these accesses nothing is mapped. -/
theorem badWriteChangesNothing : Obligations.BadWriteChangesNothing := by
  intro s width addr d rest hfree hbad hsched
  rw [step_write hfree hsched]
  have hcases : (width = .word ∧ (addr = statusAddr ∨ addr = capsAddr)) ∨
      (width ≠ .word ∨ addr % 4 ≠ 0 ∨ (0x010 ≤ addr ∧ addr < 0x100) ∨ 0x100 + 32 * s.limbs ≤ addr) := by
    tauto
  obtain ⟨rfl, rfl | rfl⟩ | hunmapped := hcases
  · rfl
  · rfl
  · exact hostWrite_of_unmapped (s := withSchedule rest s) (portEntry_eq_none hunmapped)
end

section
/-! SUPPORT. The command word (30_encoding.md): its fields, the row a word fits (R96), and the decoder read through
them. -/

namespace Sys2Proof

/-! ## The fields of a word (R91) -/

/-- A word is made of its six fields. -/
theorem packWord_fieldValue (w : Word) :
    packWord (fieldValue .opcode w) (fieldValue .rd w) (fieldValue .ra w) (fieldValue .rb w) (fieldValue .rm w)
      (fieldValue .imm8 w) = w := by
  apply BitVec.eq_of_toNat_eq
  simp only [packWord, fieldValue, fieldLow, fieldWidth, BitVec.toNat_ofNat]
  omega

theorem word_ext_fields {w w' : Word} (h : ∀ f, fieldValue f w = fieldValue f w') : w = w' := by
  rw [← packWord_fieldValue w, ← packWord_fieldValue w']
  simp only [h]

theorem fieldValue_lt (f : Field) (w : Word) : fieldValue f w < 2 ^ fieldWidth f :=
  Nat.mod_lt _ (Nat.two_pow_pos _)

theorem fieldValue_and (f : Field) (w w' : Word) : fieldValue f (w &&& w') = fieldValue f w &&& fieldValue f w' := by
  simp only [fieldValue, BitVec.toNat_and, Nat.and_div_two_pow, Nat.and_mod_two_pow]

/-- The number at each field of `packWord opcode rd ra rb rm imm8`. -/
def packedField (opcode rd ra rb rm imm8 : Nat) : Field → Nat
  | .opcode => opcode
  | .rd => rd
  | .ra => ra
  | .rb => rb
  | .rm => rm
  | .imm8 => imm8

theorem fieldValue_packWord {opcode rd ra rb rm imm8 : Nat} (hop : opcode < 256) (hrd : rd < 16) (hra : ra < 16)
    (hrb : rb < 16) (hrm : rm < 16) (himm : imm8 < 256) (f : Field) :
    fieldValue f (packWord opcode rd ra rb rm imm8) = packedField opcode rd ra rb rm imm8 f := by
  cases f <;> simp only [fieldValue, packWord, packedField, fieldLow, fieldWidth, BitVec.toNat_ofNat] <;> omega

theorem fieldReg_val {f : Field} {w : Word} (h : fieldValue f w < Config.nreg) :
    (fieldReg f w : Nat) = fieldValue f w :=
  Nat.mod_eq_of_lt h

/-! ## The row a word fits (R96) -/

/-- What the row of `op` asks of the value of a field: its opcode, 0, or a register number. -/
def FieldFits (op : Op) (f : Field) (v : Nat) : Prop :=
  (f = .opcode → v = opcodeOf op) ∧ (f ∈ opZeroFields op → v = 0) ∧ (f ∈ opRegFields op → v < Config.nreg)

/-- Every field of the word is as the row of `op` asks. -/
def FitsRow (op : Op) (w : Word) : Prop :=
  ∀ f, FieldFits op f (fieldValue f w)

theorem fitsRow_iff (op : Op) (w : Word) :
    FitsRow op w ↔ fieldValue .opcode w = opcodeOf op ∧ (∀ f ∈ opZeroFields op, fieldValue f w = 0) ∧
      ∀ f ∈ opRegFields op, fieldValue f w < Config.nreg := by
  simp only [FitsRow, FieldFits, forall_and, forall_eq]

/-- The mask of a row keeps the fields whose value it fixes and bit 3 of its registers (R96). -/
theorem fieldValue_opMask (op : Op) (f : Field) :
    fieldValue f (opMask op) = if f = .opcode ∨ f ∈ opZeroFields op then 2 ^ fieldWidth f - 1
      else if f ∈ opRegFields op then 8 else 0 := by
  cases op <;> cases f <;> decide

theorem fieldValue_opMatch (op : Op) (f : Field) :
    fieldValue f (opMatch op) = if f = .opcode then opcodeOf op else 0 := by
  cases op <;> cases f <;> decide

theorem opcode_not_mem_opZeroFields (op : Op) : Field.opcode ∉ opZeroFields op := by
  cases op <;> decide

/-- A register field of a row is none of the fields whose value the row fixes. -/
theorem opRegFields_spec (op : Op) : ∀ f ∈ opRegFields op, f ≠ .opcode ∧ f ∉ opZeroFields op ∧ fieldWidth f = 4 := by
  cases op <;> decide

/-- Bit 3 of a register field says whether it names one of the eight registers (R92). -/
theorem and_eight_eq_zero_iff {v : Nat} (h : v < 16) : v &&& 8 = 0 ↔ v < Config.nreg := by
  revert v
  decide

theorem fieldFits_iff_and_opMask (op : Op) (f : Field) (w : Word) :
    FieldFits op f (fieldValue f w) ↔ fieldValue f w &&& fieldValue f (opMask op) = fieldValue f (opMatch op) := by
  rw [fieldValue_opMask, fieldValue_opMatch]
  by_cases hreg : f ∈ opRegFields op
  · obtain ⟨hop, hzero, hwidth⟩ := opRegFields_spec op f hreg
    have hv : fieldValue f w < 2 ^ 4 := hwidth ▸ fieldValue_lt f w
    simp [FieldFits, hreg, hop, hzero, and_eight_eq_zero_iff hv]
  · have hkept : fieldValue f w % 2 ^ fieldWidth f = fieldValue f w := Nat.mod_eq_of_lt (fieldValue_lt f w)
    by_cases hzero : f ∈ opZeroFields op
    · have hop : f ≠ .opcode := fun e => opcode_not_mem_opZeroFields op (e ▸ hzero)
      simp [FieldFits, hreg, hop, hzero, hkept]
    · rcases eq_or_ne f .opcode with rfl | hop
      · simp [FieldFits, hreg, hzero, hkept]
      · simp [FieldFits, hreg, hop, hzero]

theorem fitsRow_iff_match_mask (op : Op) (w : Word) : FitsRow op w ↔ w &&& opMask op = opMatch op := by
  constructor
  · intro h
    refine word_ext_fields fun f => ?_
    rw [fieldValue_and]
    exact (fieldFits_iff_and_opMask op f w).1 (h f)
  · intro h f
    rw [fieldFits_iff_and_opMask, ← fieldValue_and, h]

/-! ## Decoding (R97) -/

theorem opOfOpcode_eq_some_iff {n : Nat} {op : Op} : opOfOpcode n = some op ↔ n = opcodeOf op := by
  constructor
  · intro h
    unfold opOfOpcode at h
    split at h <;> cases h <;> rfl
  · rintro rfl
    cases op <;> rfl

theorem fieldFault_eq_none_iff {op : Op} {w : Word} :
    fieldFault op w = none ↔
      (∀ f ∈ opZeroFields op, fieldValue f w = 0) ∧ ∀ f ∈ opRegFields op, fieldValue f w < Config.nreg := by
  unfold fieldFault
  cases hzero : (opZeroFields op).find? (fun f => fieldValue f w != 0) with
  | some f =>
    have hf := List.find?_some hzero
    have hmem := List.mem_of_find?_eq_some hzero
    refine ⟨nofun, fun ⟨h0, _⟩ => ?_⟩
    simp [h0 f hmem] at hf
  | none =>
    have h0 : ∀ f ∈ opZeroFields op, fieldValue f w = 0 := by simpa using hzero
    simp [and_iff_right h0]

/-- A word decodes exactly when it fits a row, and then to the command of that row. -/
theorem decode_eq_ok_iff {w : Word} {i : Instr} : decode w = .ok i ↔ ∃ op, FitsRow op w ∧ buildInstr op w = i := by
  simp only [fitsRow_iff, ← opOfOpcode_eq_some_iff, ← fieldFault_eq_none_iff]
  unfold decode
  cases hop : opOfOpcode (fieldValue .opcode w) with
  | none => simp
  | some op => cases hfault : fieldFault op w <;> simp [hfault]

theorem instrOp_buildInstr (op : Op) (w : Word) : instrOp (buildInstr op w) = op := by
  cases op <;> rfl

theorem decode_of_match_mask (op : Op) {w : Word} (h : w &&& opMask op = opMatch op) :
    decode w = .ok (buildInstr op w) :=
  decode_eq_ok_iff.2 ⟨op, (fitsRow_iff_match_mask op w).2 h, rfl⟩

theorem match_mask_of_decode {w : Word} {i : Instr} (h : decode w = .ok i) :
    w &&& opMask (instrOp i) = opMatch (instrOp i) := by
  obtain ⟨op, hfits, rfl⟩ := decode_eq_ok_iff.1 h
  rw [instrOp_buildInstr]
  exact (fitsRow_iff_match_mask op w).1 hfits

/-! ## Decoding and encoding undo each other (R91, R105) -/

/-- The law of Laws/PerInstr.lean, for all rows at once. -/
theorem encode_match_mask : ∀ {i : Instr}, i.wellFormed = true → encode i &&& opMask (instrOp i) = opMatch (instrOp i)
  | .modred rd ra rm => Laws.RowMatch.modred rd ra rm
  | .modadd rd ra rb rm => Laws.RowMatch.modadd rd ra rb rm
  | .modsub rd ra rb rm => Laws.RowMatch.modsub rd ra rb rm
  | .modmul rd ra rb rm => Laws.RowMatch.modmul rd ra rb rm
  | .powmod rd ra rb rm => Laws.RowMatch.powmod rd ra rb rm
  | .witness ra rm => Laws.RowMatch.witness ra rm
  | .isprime rm rounds => Laws.RowMatch.isprime rm rounds

/-- The fields of an encoding are the operands, so building the command again gives it back. -/
theorem buildInstr_encode {i : Instr} (h : i.wellFormed = true) : buildInstr (instrOp i) (encode i) = i := by
  have hreg : ∀ r : Reg, (r : Nat) < 16 := fun r => r.isLt.trans (by decide)
  cases i with
  | isprime rm rounds =>
    have hrounds : rounds < 256 := Nat.lt_succ_of_le (of_decide_eq_true h)
    simp [buildInstr, instrOp, encode, fieldReg, fieldValue_packWord, packedField, hreg, hrounds]
  | modred | modadd | modsub | modmul | powmod | witness =>
    simp [buildInstr, instrOp, encode, fieldReg, fieldValue_packWord, packedField, hreg]

theorem wellFormed_buildInstr (op : Op) (w : Word) : (buildInstr op w).wellFormed = true := by
  cases op with
  | isprime => exact decide_eq_true (Nat.le_of_lt_succ (fieldValue_lt .imm8 w))
  | modred | modadd | modsub | modmul | powmod | witness => rfl

theorem encode_buildInstr {op : Op} {w : Word} (h : FitsRow op w) : encode (buildInstr op w) = w := by
  obtain ⟨hop, hzero, hreg⟩ := (fitsRow_iff op w).1 h
  have hval : ∀ f ∈ opRegFields op, (fieldReg f w : Nat) = fieldValue f w := fun f hf => fieldReg_val (hreg f hf)
  refine Eq.trans ?_ (packWord_fieldValue w)
  cases op <;> simp_all [buildInstr, encode, opZeroFields, opRegFields, opcodeOf]

end Sys2Proof

open Sys2Proof Sys2Proof.Machine

/-- Settles O2: the word fits its row's match and mask, and its fields are the operands. -/
theorem decodeEncodeRoundTrip : Obligations.DecodeEncodeRoundTrip := by
  intro i h
  rw [decode_of_match_mask (instrOp i) (encode_match_mask h), buildInstr_encode h]

/-- Settles O3: a word that fits a row is made of the fields the command was built from. -/
theorem legalWordIsItsEncoding : Obligations.LegalWordIsItsEncoding := by
  intro w i h
  obtain ⟨op, hfits, rfl⟩ := decode_eq_ok_iff.1 h
  exact ⟨wellFormed_buildInstr op w, encode_buildInstr hfits⟩

/-- Settles O4: match and mask say field by field what the decoder asks of the row. -/
theorem matchAndMaskDecideTheRow : Obligations.MatchAndMaskDecideTheRow := fun _ =>
  ⟨⟨fun ⟨_, _, _, h⟩ => match_mask_of_decode h, fun h => ⟨_, _, _, decode_of_match_mask .modred h⟩⟩,
    ⟨fun ⟨_, _, _, _, h⟩ => match_mask_of_decode h, fun h => ⟨_, _, _, _, decode_of_match_mask .modadd h⟩⟩,
    ⟨fun ⟨_, _, _, _, h⟩ => match_mask_of_decode h, fun h => ⟨_, _, _, _, decode_of_match_mask .modsub h⟩⟩,
    ⟨fun ⟨_, _, _, _, h⟩ => match_mask_of_decode h, fun h => ⟨_, _, _, _, decode_of_match_mask .modmul h⟩⟩,
    ⟨fun ⟨_, _, _, _, h⟩ => match_mask_of_decode h, fun h => ⟨_, _, _, _, decode_of_match_mask .powmod h⟩⟩,
    ⟨fun ⟨_, _, h⟩ => match_mask_of_decode h, fun h => ⟨_, _, decode_of_match_mask .witness h⟩⟩,
    fun ⟨_, _, h⟩ => match_mask_of_decode h, fun h => ⟨_, _, decode_of_match_mask .isprime h⟩⟩

/-- Settles O1: eight round trips, and nine words whose fields are refused in the order of R97. -/
theorem workedEncodingsDecode : Obligations.WorkedEncodingsDecode :=
  ⟨decodeEncodeRoundTrip (.modred 2 1 0) rfl, decodeEncodeRoundTrip (.modadd 3 1 2 0) rfl,
    decodeEncodeRoundTrip (.modsub 3 1 2 0) rfl, decodeEncodeRoundTrip (.modmul 3 0 1 7) rfl,
    decodeEncodeRoundTrip (.powmod 4 1 2 0) rfl, decodeEncodeRoundTrip (.witness 1 0) rfl,
    decodeEncodeRoundTrip (.isprime 0 100) rfl, decodeEncodeRoundTrip (.isprime 5 0) rfl, by decide⟩
end

section
/-! SUPPORT. The legal words counted (R98): as many as the well-formed commands, which are counted row by row. -/

namespace Sys2Proof

/-- The operands of the seven rows, one summand for each row of R96 in its order. -/
abbrev RowOperands : Type :=
  (Reg × Reg × Reg) ⊕ (Reg × Reg × Reg × Reg) ⊕ (Reg × Reg × Reg × Reg) ⊕ (Reg × Reg × Reg × Reg) ⊕
    (Reg × Reg × Reg × Reg) ⊕ (Reg × Reg) ⊕ (Reg × Fin 256)

/-- A well-formed command is its row and its operands. -/
def wellFormedEquivOperands : { i : Instr // i.wellFormed = true } ≃ RowOperands where
  toFun
    | ⟨.modred rd ra rm, _⟩ => .inl (rd, ra, rm)
    | ⟨.modadd rd ra rb rm, _⟩ => .inr (.inl (rd, ra, rb, rm))
    | ⟨.modsub rd ra rb rm, _⟩ => .inr (.inr (.inl (rd, ra, rb, rm)))
    | ⟨.modmul rd ra rb rm, _⟩ => .inr (.inr (.inr (.inl (rd, ra, rb, rm))))
    | ⟨.powmod rd ra rb rm, _⟩ => .inr (.inr (.inr (.inr (.inl (rd, ra, rb, rm)))))
    | ⟨.witness ra rm, _⟩ => .inr (.inr (.inr (.inr (.inr (.inl (ra, rm))))))
    | ⟨.isprime rm rounds, h⟩ =>
      .inr (.inr (.inr (.inr (.inr (.inr (rm, ⟨rounds, Nat.lt_succ_of_le (of_decide_eq_true h)⟩))))))
  invFun
    | .inl (rd, ra, rm) => ⟨.modred rd ra rm, rfl⟩
    | .inr (.inl (rd, ra, rb, rm)) => ⟨.modadd rd ra rb rm, rfl⟩
    | .inr (.inr (.inl (rd, ra, rb, rm))) => ⟨.modsub rd ra rb rm, rfl⟩
    | .inr (.inr (.inr (.inl (rd, ra, rb, rm)))) => ⟨.modmul rd ra rb rm, rfl⟩
    | .inr (.inr (.inr (.inr (.inl (rd, ra, rb, rm))))) => ⟨.powmod rd ra rb rm, rfl⟩
    | .inr (.inr (.inr (.inr (.inr (.inl (ra, rm)))))) => ⟨.witness ra rm, rfl⟩
    | .inr (.inr (.inr (.inr (.inr (.inr (rm, rounds)))))) =>
      ⟨.isprime rm rounds, decide_eq_true (Nat.le_of_lt_succ rounds.isLt)⟩
  left_inv := by
    rintro ⟨i, h⟩
    cases i <;> rfl
  right_inv := by
    rintro (_ | _ | _ | _ | _ | _ | _) <;> rfl

theorem card_rowOperands : Nat.card RowOperands = 19008 := by
  simp [Nat.card_eq_fintype_card, Config.nreg]

/-- The word of a well-formed command, a legal word by the round trip. -/
def legalWord (i : { i : Instr // i.wellFormed = true }) : { w : Word // ∃ i, decode w = .ok i } :=
  ⟨encode i, i, decodeEncodeRoundTrip i i.2⟩

theorem legalWord_bijective : Function.Bijective legalWord := by
  refine ⟨fun i j h => ?_, fun ⟨w, i, h⟩ => ?_⟩
  · have hword : encode i = encode j := congrArg Subtype.val h
    have hinstr : (Except.ok i.1 : Except Illegal Instr) = .ok j.1 := by
      rw [← decodeEncodeRoundTrip i i.2, hword, decodeEncodeRoundTrip j j.2]
    exact Subtype.ext (Except.ok.inj hinstr)
  · obtain ⟨hwf, hword⟩ := legalWordIsItsEncoding w i h
    exact ⟨⟨i, hwf⟩, Subtype.ext hword⟩

end Sys2Proof

open Sys2Proof

/-- Settles O5: 512 words of `MODRED`, four rows of 4096, 64 of `WITNESS` and 2048 of `ISPRIME`. -/
theorem legalWordCount : Obligations.LegalWordCount :=
  calc Nat.card { w : Word // ∃ i, decode w = .ok i }
      = Nat.card { i : Instr // i.wellFormed = true } := (Nat.card_eq_of_bijective _ legalWord_bijective).symm
    _ = Nat.card RowOperands := Nat.card_congr wellFormedEquivOperands
    _ = 19008 := card_rowOperands
end

section
/-! SUPPORT. The assembler text (R102, R105): a printed line is cut back into its mnemonic and its operands, and each
printed operand is read back. -/

namespace Sys2Proof.Machine

/-! ## Words between separators -/

/-- A text that is not empty and has no blank, comma or semicolon. -/
def IsPlain (cs : List Char) : Prop :=
  cs ≠ [] ∧ ∀ c ∈ cs, isBlank c = false ∧ c ≠ ',' ∧ c ≠ ';'

section Words
variable {cs : List Char}

theorem trimBlanks_eq_self (hhead : ∀ c ∈ cs.head?, isBlank c = false) (hlast : ∀ c ∈ cs.getLast?, isBlank c = false) :
    trimBlanks cs = cs := by
  have hfront : cs.dropWhile isBlank = cs := by
    cases cs with
    | nil => rfl
    | cons c cs => exact List.dropWhile_cons_of_neg (by simp [hhead c rfl])
  have hback : cs.rdropWhile isBlank = cs :=
    List.rdropWhile_eq_self_iff.2 fun hne => by simp [hlast _ (List.getLast?_eq_some_getLast hne)]
  rw [trimBlanks, hfront]
  exact hback

theorem IsPlain.head (h : IsPlain cs) : ∀ c ∈ cs.head?, isBlank c = false :=
  fun c hc => (h.2 c (List.mem_of_head? hc)).1

theorem IsPlain.getLast (h : IsPlain cs) : ∀ c ∈ cs.getLast?, isBlank c = false :=
  fun c hc => (h.2 c (List.mem_of_getLast? hc)).1

theorem IsPlain.no_comma (h : IsPlain cs) : ∀ c ∈ cs, c ≠ ',' :=
  fun c hc => (h.2 c hc).2.1

theorem IsPlain.no_semicolon (h : IsPlain cs) : ∀ c ∈ cs, c ≠ ';' :=
  fun c hc => (h.2 c hc).2.2

theorem IsPlain.trimBlanks_after_blank (h : IsPlain cs) : trimBlanks (' ' :: cs) = cs :=
  trimBlanks_eq_self h.head h.getLast

theorem takeWhile_not_blank_append (h : IsPlain cs) (rest : List Char) :
    (cs ++ ' ' :: rest).takeWhile (fun c => !isBlank c) = cs := by
  rw [List.takeWhile_append_of_pos fun c hc => by simp [(h.2 c hc).1]]
  simp [isBlank]

theorem dropWhile_not_blank_append (h : IsPlain cs) (rest : List Char) :
    (cs ++ ' ' :: rest).dropWhile (fun c => !isBlank c) = ' ' :: rest := by
  rw [List.dropWhile_append_of_pos fun c hc => by simp [(h.2 c hc).1]]
  simp [isBlank]

theorem splitCommas_of_no_comma (h : ∀ c ∈ cs, c ≠ ',') : splitCommas cs = [cs] := by
  induction cs with
  | nil => rfl
  | cons c cs ih =>
    obtain ⟨hc, hcs⟩ := List.forall_mem_cons.1 h
    simp [splitCommas, hc, ih hcs]

theorem splitCommas_append_comma (h : ∀ c ∈ cs, c ≠ ',') (rest : List Char) :
    splitCommas (cs ++ ',' :: rest) = cs :: splitCommas rest := by
  induction cs with
  | nil => simp [splitCommas]
  | cons c cs ih =>
    obtain ⟨hc, hcs⟩ := List.forall_mem_cons.1 h
    simp [splitCommas, hc, ih hcs]

end Words

section Operands
variable {parts : List (List Char)}

theorem joinOperands_ends_in_part (hne : parts ≠ []) : ∃ pre, ∃ p ∈ parts, joinOperands parts = pre ++ p := by
  induction parts using joinOperands.induct with
  | case1 => exact absurd rfl hne
  | case2 p => exact ⟨[], p, List.mem_cons_self, rfl⟩
  | case3 p q rest ih =>
    obtain ⟨pre, r, hr, hjoin⟩ := ih (List.cons_ne_nil _ _)
    exact ⟨p ++ [',', ' '] ++ pre, r, List.mem_cons_of_mem p hr, by rw [joinOperands, hjoin, List.append_assoc _ pre]⟩

theorem no_semicolon_joinOperands (h : ∀ p ∈ parts, IsPlain p) : ∀ c ∈ joinOperands parts, c ≠ ';' := by
  induction parts using joinOperands.induct with
  | case1 => nofun
  | case2 p => exact (h p List.mem_cons_self).no_semicolon
  | case3 p q rest ih =>
    obtain ⟨hp, hrest⟩ := List.forall_mem_cons.1 h
    simpa [joinOperands, or_imp, forall_and] using ⟨hp.no_semicolon, ih hrest⟩

/-- The pieces between the commas, without their blanks, are the operands that were joined. -/
theorem splitCommas_joinOperands (hne : parts ≠ []) (h : ∀ p ∈ parts, IsPlain p) :
    (splitCommas (' ' :: joinOperands parts)).map trimBlanks = parts := by
  have hpiece : ∀ p ∈ parts, ∀ c ∈ ' ' :: p, c ≠ ',' := fun p hp =>
    List.forall_mem_cons.2 ⟨by decide, (h p hp).no_comma⟩
  induction parts using joinOperands.induct with
  | case1 => exact absurd rfl hne
  | case2 p =>
    rw [joinOperands, splitCommas_of_no_comma (hpiece p List.mem_cons_self)]
    simp [(h p List.mem_cons_self).trimBlanks_after_blank]
  | case3 p q rest ih =>
    obtain ⟨hp, hrest⟩ := List.forall_mem_cons.1 h
    have hcut : ' ' :: joinOperands (p :: q :: rest) = (' ' :: p) ++ ',' :: (' ' :: joinOperands (q :: rest)) := by
      simp [joinOperands]
    rw [hcut, splitCommas_append_comma (hpiece p List.mem_cons_self), List.map_cons, hp.trimBlanks_after_blank,
      ih (List.cons_ne_nil _ _) hrest fun p' hp' => hpiece p' (List.mem_cons_of_mem p hp')]

/-- A line of a mnemonic and joined operands is read as its row and these operands. -/
theorem parseInstr_line {mnemonic : List Char} (hm : IsPlain mnemonic) (hne : parts ≠ []) (h : ∀ p ∈ parts, IsPlain p) :
    parseInstr (mnemonic ++ [' '] ++ joinOperands parts) =
      (opOfMnemonic mnemonic).bind fun op => parseOperands op parts := by
  have hline : mnemonic ++ [' '] ++ joinOperands parts = mnemonic ++ ' ' :: joinOperands parts := by simp
  have hcomment : (mnemonic ++ ' ' :: joinOperands parts).takeWhile (fun c => c != ';') =
      mnemonic ++ ' ' :: joinOperands parts := by
    refine List.takeWhile_eq_self_iff.2 fun c hc => bne_iff_ne.2 ?_
    rcases List.mem_append.1 hc with hc | hc
    · exact hm.no_semicolon c hc
    · exact List.forall_mem_cons.2 ⟨by decide, no_semicolon_joinOperands h⟩ c hc
  have htrim : trimBlanks (mnemonic ++ ' ' :: joinOperands parts) = mnemonic ++ ' ' :: joinOperands parts := by
    obtain ⟨pre, p, hp, hjoin⟩ := joinOperands_ends_in_part hne
    refine trimBlanks_eq_self ?_ ?_
    · rw [List.head?_append_of_ne_nil _ hm.1]
      exact hm.head
    · rw [hjoin, ← List.cons_append, ← List.append_assoc, List.getLast?_append_of_ne_nil _ (h p hp).1]
      exact (h p hp).getLast
  rw [hline]
  simp only [parseInstr, hcomment, htrim, takeWhile_not_blank_append hm, dropWhile_not_blank_append hm,
    splitCommas_joinOperands hne h]
  cases opOfMnemonic mnemonic <;> rfl

end Operands

/-! ## Mnemonics, registers and counts -/

theorem isPlain_opMnemonic (op : Op) : IsPlain (opMnemonic op).toList := by
  cases op <;> simp [IsPlain, opMnemonic, isBlank]

theorem opOfMnemonic_opMnemonic (op : Op) : opOfMnemonic (opMnemonic op).toList = some op := by
  cases op <;> decide

theorem parseReg_regName (r : Reg) : parseReg (regName r) = some r := by
  revert r
  decide

theorem digitValue_digitChar {d : Nat} (h : d < 10) : digitValue 10 (digitChar d) = some d := by
  revert d
  decide

theorem digitChar_plain {d : Nat} (h : d < 10) :
    isBlank (digitChar d) = false ∧ digitChar d ≠ ',' ∧ digitChar d ≠ ';' ∧ digitChar d ≠ 'x' := by
  revert d
  decide

theorem decimal_ne_nil (v : Nat) : decimal v ≠ [] := by
  unfold decimal
  split_ifs <;> exact List.cons_ne_nil _ _

theorem mem_decimal {v : Nat} {c : Char} (h : c ∈ decimal v) : ∃ d < 10, c = digitChar d := by
  unfold decimal at h
  split_ifs at h with h10 h100
  · exact ⟨v, h10, List.mem_singleton.1 h⟩
  · have hd : v / 10 < 10 := by omega
    simp only [List.mem_cons, List.not_mem_nil, or_false] at h
    rcases h with h | h
    · exact ⟨_, hd, h⟩
    · exact ⟨_, Nat.mod_lt _ (by decide), h⟩
  · simp only [List.mem_cons, List.not_mem_nil, or_false] at h
    rcases h with h | h | h <;> exact ⟨_, Nat.mod_lt _ (by decide), h⟩

theorem parseDigits_decimal {v : Nat} (h : v < 1000) : parseDigits 10 0 (decimal v) = some v := by
  unfold decimal
  split_ifs with h10 h100
  · simp [parseDigits, digitValue_digitChar h10]
  · have hd : v / 10 < 10 := by omega
    simp [parseDigits, digitValue_digitChar, hd, Nat.mod_lt]
    omega
  · simp [parseDigits, digitValue_digitChar, Nat.mod_lt]
    omega

theorem isPlain_cons_digits {c : Char} {cs : List Char} (hc : isBlank c = false ∧ c ≠ ',' ∧ c ≠ ';')
    (h : ∀ x ∈ cs, ∃ d < 10, x = digitChar d) : IsPlain (c :: cs) := by
  refine ⟨List.cons_ne_nil _ _, List.forall_mem_cons.2 ⟨hc, fun x hx => ?_⟩⟩
  obtain ⟨d, hd, rfl⟩ := h x hx
  obtain ⟨hblank, hcomma, hsemi, -⟩ := digitChar_plain hd
  exact ⟨hblank, hcomma, hsemi⟩

theorem isPlain_regName (r : Reg) : IsPlain (regName r) :=
  isPlain_cons_digits (by decide) fun _ hx => ⟨r, r.isLt.trans (by decide), List.mem_singleton.1 hx⟩

theorem isPlain_count (v : Nat) : IsPlain ('#' :: decimal v) :=
  isPlain_cons_digits (by decide) fun _ => mem_decimal

/-- A decimal count has no `x`, so it is not read as a hexadecimal one. -/
theorem parseImm_count {v : Nat} (h : v ≤ Config.roundsMax) : parseImm ('#' :: decimal v) = some v := by
  have hx : 'x' ∉ decimal v := fun hc => by
    obtain ⟨d, hd, he⟩ := mem_decimal hc
    obtain ⟨-, -, -, hne⟩ := digitChar_plain hd
    exact hne he.symm
  unfold parseImm
  split
  case h_1 c cs he =>
    exact absurd ((List.cons.inj he).2 ▸ by simp) hx
  case h_2 c cs _ he =>
    rw [← (List.cons.inj he).2, parseDigits_decimal (h.trans_lt (by decide))]
    simp [Option.filter, h]
  case h_3 hno =>
    obtain ⟨c, cs, he⟩ := List.exists_cons_of_ne_nil (decimal_ne_nil v)
    exact absurd (congrArg _ he) (hno c cs)

/-! ## Printed commands -/

theorem operandTexts_ne_nil (i : Instr) : operandTexts i ≠ [] := by
  cases i <;> exact List.cons_ne_nil _ _

theorem isPlain_operandTexts (i : Instr) : ∀ p ∈ operandTexts i, IsPlain p := by
  cases i <;> simp [operandTexts, isPlain_regName, isPlain_count]

theorem parseOperands_operandTexts {i : Instr} (h : i.wellFormed = true) :
    parseOperands (instrOp i) (operandTexts i) = some i := by
  cases i with
  | isprime rm rounds =>
    simp [parseOperands, instrOp, operandTexts, parseRegImm, parseReg_regName, parseImm_count (of_decide_eq_true h)]
  | modred => simp [parseOperands, instrOp, operandTexts, parseRegs3, parseReg_regName]
  | witness => simp [parseOperands, instrOp, operandTexts, parseRegs2, parseReg_regName]
  | modadd | modsub | modmul | powmod => simp [parseOperands, instrOp, operandTexts, parseRegs4, parseReg_regName]

theorem parseInstr_printInstr {i : Instr} (h : i.wellFormed = true) : parseInstr (printInstr i) = some i := by
  rw [printInstr, parseInstr_line (isPlain_opMnemonic _) (operandTexts_ne_nil i) (isPlain_operandTexts i),
    opOfMnemonic_opMnemonic, Option.bind_some, parseOperands_operandTexts h]

theorem printWord_of_decode {w : Word} {i : Instr} (h : decode w = .ok i) : printWord w = printInstr i := by
  simp only [printWord, h]

end Sys2Proof.Machine

open Sys2Proof Sys2Proof.Machine

/-- Settles O6: the printed text is read back as the command, whose encoding is the word. -/
theorem printThenAssemble : Obligations.PrintThenAssemble := by
  intro w i h
  obtain ⟨hwf, hword⟩ := legalWordIsItsEncoding w i h
  rw [printWord_of_decode h, assemble, parseInstr_printInstr hwf, Option.map_some, hword]
end

section
/-! SUPPORT. Field-element arithmetic (R120 to R131): an accepted command runs to its register result, said once for every
command that has one, and the laws of the four values. -/

namespace Sys2Proof.Machine

/-! ## From acceptance to the result (R44, R45) -/

section Results
variable {i : Instr} {s : State}

/-- Acceptance steps 3 and 4 when no operand check fails (R44). -/
theorem exec_idle_of_check_none (h : s.Idle) (hc : commandCheck i s = none) :
    exec i s = .next { s with busy := true, hidden := some (commandLatch i s) } := by
  rw [exec_idle i h, hc]
  rfl

theorem running_of_idle (h : s.Idle) (f : InFlight) : ({ s with busy := true, hidden := some f } : State).Running := by
  obtain ⟨-, hr, he⟩ := h
  exact ⟨rfl, hr, he⟩

/-- Acceptance and completion of a command whose step on what it latched writes `v` to `rd`. -/
theorem exec_idle_then_completeReg {rd : Reg} {v : Nat} (h : s.Idle) (hc : commandCheck i s = none)
    (hadv : ∀ t, commandAdvance i (commandLatch i s) t = .next (completeReg rd v t)) :
    ∃ t, exec i s = .next t ∧ t = { s with busy := true, hidden := some (commandLatch i s) } ∧
      exec i t = .next { s with
        regs := s.regs.set rd v, busy := false, rwait := false, done := true, hidden := none, draw := none } := by
  refine ⟨_, exec_idle_of_check_none h hc, rfl, ?_⟩
  rw [exec_running i (running_of_idle h _) rfl, hadv]
  rfl

/-- A failed operand check is the command's fault, and nothing else happens (R44 step 3, R256). -/
theorem exec_idle_of_check_some {c : ErrCode} (h : s.Idle) (hc : commandCheck i s = some c) :
    exec i s = .next (raiseFault c s) := by
  rw [exec_idle i h, hc]
  rfl

end Results

theorem checkWitness_zero : checkWitness 0 = some .modZero := rfl

/-! ## The laws of the four values (R131) -/

section Laws
variable (a b c n : Nat)

theorem modadd_comm : modadd a b n = modadd b a n := by
  simp only [modadd, Nat.add_comm]

theorem modmul_comm : modmul a b n = modmul b a n := by
  simp only [modmul, Nat.mul_comm]

theorem modmul_one : modmul a 1 n = modred a n := by
  simp only [modmul, modred, Nat.mul_one]

@[simp] theorem modsub_self : modsub a a n = 0 := by
  simp only [modsub, ge_iff_le, Nat.le_refl, if_true, Nat.sub_self]

/-- What makes `modsub` the residue R124 asks for: adding `b` back gives `a` modulo `n`. -/
theorem modadd_modsub_cancel (hn : 0 < n) : modadd (modsub a b n) b n = modred a n := by
  have hb : b % n < n := Nat.mod_lt b hn
  have hback : modsub a b n + b % n = a % n ∨ modsub a b n + b % n = a % n + n := by
    unfold modsub
    split
    · exact .inl (by omega)
    · exact .inr (by omega)
  rw [modadd, modred, ← Nat.add_mod_mod]
  rcases hback with h | h <;> simp [h]

theorem modmul_assoc : modmul (modmul a b n) c n = modmul a (modmul b c n) n := by
  simp only [modmul, Nat.mod_mul_mod, Nat.mul_mod_mod, Nat.mul_assoc]

/-! An operand may be reduced first (R127). -/

@[simp] theorem modred_mod : modred (a % n) n = modred a n :=
  Nat.mod_mod a n

@[simp] theorem modadd_mod_left : modadd (a % n) b n = modadd a b n :=
  Nat.mod_add_mod a n b

@[simp] theorem modadd_mod_right : modadd b (a % n) n = modadd b a n :=
  Nat.add_mod_mod b a n

@[simp] theorem modsub_mod_left : modsub (a % n) b n = modsub a b n := by
  simp only [modsub, Nat.mod_mod]

@[simp] theorem modsub_mod_right : modsub b (a % n) n = modsub b a n := by
  simp only [modsub, Nat.mod_mod]

@[simp] theorem modmul_mod_left : modmul (a % n) b n = modmul a b n :=
  Nat.mod_mul_mod a b n

@[simp] theorem modmul_mod_right : modmul b (a % n) n = modmul b a n :=
  Nat.mul_mod_mod b a n

end Laws

end Sys2Proof.Machine

open Sys2Proof Sys2Proof.Machine

/-- Settles O12: the residue is the value of the model's `modsub`. -/
theorem modsubResult : Obligations.ModsubResult := by
  intro rd ra rb rm s hs hn
  obtain ⟨t, haccept, ht, hdone⟩ :=
    exec_idle_then_completeReg (i := .modsub rd ra rb rm) hs (checkModulus_pos hn) (fun _ => rfl)
  have hpos : 0 < readReg s rm := Nat.pos_of_ne_zero hn
  exact ⟨t, _, haccept, ht, hdone, modsub_lt hpos, modadd_modsub_cancel _ _ _ hpos⟩

/-- Settles O16: one lemma per law; only adding back what was subtracted needs the modulus to be at least 1. -/
theorem fieldArithmeticLaws : Obligations.FieldArithmeticLaws := fun a b c n hn =>
  ⟨modadd_comm a b n, modmul_comm a b n, modadd_modsub_cancel a b n hn, modsub_self a n, modmul_one a n, modred_mod a n,
    modadd_mod_left a b n, modadd_mod_right a b n, modsub_mod_left a b n, modsub_mod_right a b n,
    modmul_mod_left a b n, modmul_mod_right a b n, modred_mod a n, modmul_assoc a b c n⟩

/-- Settles O10: acceptance and completion, with the value of R122. -/
theorem modredResult : Obligations.ModredResult := fun rd ra rm _ hs hn =>
  exec_idle_then_completeReg (i := .modred rd ra rm) hs (checkModulus_pos hn) (fun _ => rfl)

/-- Settles O11: acceptance and completion, with the value of R123. -/
theorem modaddResult : Obligations.ModaddResult := fun rd ra rb rm _ hs hn =>
  exec_idle_then_completeReg (i := .modadd rd ra rb rm) hs (checkModulus_pos hn) (fun _ => rfl)

/-- Settles O13: acceptance and completion, with the value of R125. -/
theorem modmulResult : Obligations.ModmulResult := fun rd ra rb rm _ hs hn =>
  exec_idle_then_completeReg (i := .modmul rd ra rb rm) hs (checkModulus_pos hn) (fun _ => rfl)

/-- Settles O14: for all six commands the operand check finds the zero modulus. -/
theorem zeroModulusFaults : Obligations.ZeroModulusFaults := by
  intro rd ra rb rm i s hi hs hzero
  have hcheck : commandCheck i s = some .modZero := by
    simp only [List.mem_cons, List.not_mem_nil, or_false] at hi
    rcases hi with rfl | rfl | rfl | rfl | rfl | rfl <;>
      simp only [commandCheck, hzero, checkModulus_zero, checkWitness_zero]
  exact exec_idle_of_check_some hs hcheck

/-- Settles O15: a running command's step is a function of its hidden state, and the registers enter only as what the
completion overwrites. -/
theorem fieldCommandsUseLatchedOperands : Obligations.FieldCommandsUseLatchedOperands := fun rd ra rb rm _ _ _ _ hs hf =>
  ⟨exec_running (.modred rd ra rm) hs hf, exec_running (.modadd rd ra rb rm) hs hf,
    exec_running (.modsub rd ra rb rm) hs hf, exec_running (.modmul rd ra rb rm) hs hf⟩
end

section
/-! SUPPORT. The POWMOD loop (R141 to R145): the product every pass keeps, how much of the exponent is left after `k`
passes, and from both the value the loop ends with. -/

namespace Sys2Proof.Machine

/-! ## The product (R145) -/

/-- `(v * p^d) mod n`, which the loop of R145 keeps. -/
def PowWork.product (n : Nat) (w : PowWork) : Nat :=
  w.v * w.p ^ w.d % n

theorem product_of_zero {n : Nat} {w : PowWork} (h : w.d = 0) : w.product n = w.v % n := by
  rw [PowWork.product, h, pow_zero, mul_one]

theorem product_powStart (b e n : Nat) : (powStart b e n).product n = b ^ e % n := by
  simp only [PowWork.product, powStart, Nat.mod_mul_mod, one_mul, ← Nat.pow_mod]

/-- One factor of the running power goes into the accumulator when `d` is odd, and the rest is a power of its square. -/
theorem product_powPass (n : Nat) (w : PowWork) : (powPass n w).product n = w.product n := by
  by_cases hd : w.d = 0
  · rw [powPass_of_zero hd]
  have hsquare : (w.p * w.p % n) ^ (w.d / 2) ≡ w.p ^ (2 * (w.d / 2)) [MOD n] := by
    rw [pow_mul, pow_two]
    exact (Nat.mod_modEq _ n).pow _
  rw [powPass, if_neg hd]
  by_cases hodd : w.d % 2 = 1
  · have hsplit : w.v * w.p ^ w.d = w.v * w.p * w.p ^ (2 * (w.d / 2)) := by
      rw [mul_assoc, ← pow_succ', ← hodd, Nat.div_add_mod]
    simp only [PowWork.product, if_pos hodd, hsplit]
    exact (Nat.mod_modEq _ n).mul hsquare
  · have heven : 2 * (w.d / 2) = w.d := by omega
    rw [heven] at hsquare
    simp only [PowWork.product, if_neg hodd]
    exact hsquare.mul_left w.v

theorem product_powPasses (n k : Nat) (w : PowWork) : (powPasses n k w).product n = w.product n := by
  induction k generalizing w with
  | zero => rfl
  | succ k ih => rw [powPasses, ih, product_powPass]

/-! ## The number of passes (R143) -/

theorem bitlen_le_iff {d k : Nat} : bitlen d ≤ k ↔ d < 2 ^ k := by
  unfold bitlen
  split
  next h => simp [h]
  next h => rw [Nat.add_one_le_iff, Nat.log2_lt h]

/-- `k` passes consume the `k` low bits of the exponent. -/
theorem powPasses_d (n k : Nat) (w : PowWork) : (powPasses n k w).d = w.d / 2 ^ k := by
  induction k generalizing w with
  | zero => simp [powPasses]
  | succ k ih =>
    rw [powPasses, ih, pow_succ', ← Nat.div_div_eq_div_mul]
    by_cases hd : w.d = 0
    · rw [powPass_of_zero hd, hd, Nat.zero_div]
    · rw [powPass_d hd]

theorem powPasses_d_eq_zero_iff {n k : Nat} {w : PowWork} : (powPasses n k w).d = 0 ↔ bitlen w.d ≤ k := by
  rw [powPasses_d, bitlen_le_iff, Nat.div_eq_zero_iff_lt (Nat.two_pow_pos k)]

/-! ## The value (R141, R145) -/

/-- When the exponent is consumed the product is the accumulator, a residue already. -/
theorem powFinish_eq_product {n : Nat} {w : PowWork} (hv : w.v < n) (hp : w.p < n) : powFinish n w = w.product n := by
  have hconsumed : (powPasses n (bitlen w.d) w).d = 0 := powPasses_d_eq_zero_iff.2 le_rfl
  calc powFinish n w
      = powFinish n w % n := (Nat.mod_eq_of_lt (powPasses_v_lt _ hv hp)).symm
    _ = (powPasses n (bitlen w.d) w).product n := (product_of_zero hconsumed).symm
    _ = w.product n := product_powPasses n _ w

/-- The loop is modular exponentiation, modulus 1 and exponent 0 included (R142). -/
theorem powmod_eq_pow_mod {n : Nat} (b e : Nat) (hn : 0 < n) : powmod b e n = b ^ e % n := by
  have hv : (powStart b e n).v < n := Nat.mod_lt _ hn
  have hp : (powStart b e n).p < n := Nat.mod_lt _ hn
  rw [powmod, powFinish_eq_product hv hp, product_powStart]

end Sys2Proof.Machine

open Sys2Proof Sys2Proof.Machine

/-- Settles O17: POWMOD completes with the model's `powmod` of what it latched, which is the residue of the power. -/
theorem powmodResult : Obligations.PowmodResult := by
  intro rd ra rb rm s hs hn
  rw [← powmod_eq_pow_mod _ _ (Nat.pos_of_ne_zero hn)]
  exact exec_idle_then_completeReg (i := .powmod rd ra rb rm) hs (checkModulus_pos hn) (fun _ => rfl)

/-- Settles O18: the start, pass and exit clauses of R145's invariant. -/
theorem powmodPassKeepsTheProduct : Obligations.PowmodPassKeepsTheProduct :=
  ⟨product_powStart, product_powPass, fun _ _ => powFinish_of_zero⟩

/-- Settles O19: the exponent is consumed exactly from `bitlen(d)` passes on, and `bitlen` is at most the width. -/
theorem powmodRunsBitlenPasses : Obligations.PowmodRunsBitlenPasses := fun _ _ =>
  ⟨powPasses_d_eq_zero_iff.2 le_rfl, fun _ hk hzero => hk.not_ge (powPasses_d_eq_zero_iff.1 hzero),
    fun _ => bitlen_le_iff.2⟩
end

section
/-! SUPPORT. The verdict of `witness(a, n)` (R162): what the halving and the squaring loop compute, and what the verdict is for
a prime (R174). -/

namespace Sys2Proof.Machine

/-! ## The loops (R162) -/

theorem nontrivialRoot_iff {n x y : Nat} : nontrivialRoot n x y = true ↔ y = 1 ∧ x ≠ 1 ∧ x ≠ n - 1 := by
  simp [nontrivialRoot, and_assoc]

/-- The halving loop takes out as many factors 2 as its fuel allows. -/
theorem halve_two_pow_mul {u k fuel : Nat} (hu : u % 2 = 1) (hk : k ≤ fuel) (t : Nat) :
    halve fuel (u * 2 ^ k) t = (u, t + k) := by
  induction k generalizing fuel t with
  | zero => rw [pow_zero, mul_one, add_zero, halve_of_odd (by omega)]
  | succ k ih =>
    obtain ⟨fuel, rfl⟩ := Nat.exists_eq_add_of_le' (Nat.zero_lt_of_lt hk)
    have heven : u * 2 ^ (k + 1) = 2 * (u * 2 ^ k) := by ring
    rw [heven, halve, if_pos (Nat.mul_mod_right 2 _), Nat.mul_div_cancel_left _ Nat.two_pos,
      ih (Nat.le_of_succ_le_succ hk), Nat.add_right_comm, Nat.add_assoc]

/-- The fuel of the model's halving loop is enough (R164). -/
theorem halve_bitlen {u k : Nat} (hu : u % 2 = 1) (t : Nat) :
    halve (bitlen (u * 2 ^ k)) (u * 2 ^ k) t = (u, t + k) := by
  refine halve_two_pow_mul hu (Nat.le_of_not_lt fun hlt => ?_) t
  have hsmall : u * 2 ^ k < 2 ^ k := bitlen_le_iff.1 hlt.le
  have hlarge : 2 ^ k ≤ u * 2 ^ k := Nat.le_mul_of_pos_left _ (by omega)
  omega

/-- The squaring loop reports a non-trivial root met in some round, or a last square that is not 1. -/
theorem squareLoop_iff (n k b : Nat) :
    squareLoop n k (b % n) = true ↔
      (∃ i, i < k ∧ nontrivialRoot n (b ^ 2 ^ i % n) (b ^ 2 ^ (i + 1) % n) = true) ∨ b ^ 2 ^ k % n ≠ 1 := by
  induction k generalizing b with
  | zero => simp [squareLoop]
  | succ k ih =>
    have hsquare : b % n * (b % n) % n = b ^ 2 % n := by rw [← Nat.mul_mod, pow_two]
    have hpow (i : Nat) : (b ^ 2) ^ 2 ^ i = b ^ 2 ^ (i + 1) := by rw [← pow_mul, pow_succ']
    rw [squareLoop, hsquare, Nat.exists_lt_succ_left, or_assoc, Bool.if_true_left, Bool.or_eq_true, ih]
    simp only [hpow, decide_eq_true_eq, pow_zero, pow_one, zero_add]

/-- `witness(a, n)` for `n - 1 = u * 2^k` with `u` odd. -/
theorem witness_iff {n u k : Nat} (hn : 2 ≤ n) (hu : u % 2 = 1) (hsplit : n - 1 = u * 2 ^ k) (a : Nat) :
    witness a n = true ↔
      (∃ i, i < k ∧ nontrivialRoot n (a ^ (u * 2 ^ i) % n) (a ^ (u * 2 ^ (i + 1)) % n) = true) ∨
        a ^ (n - 1) % n ≠ 1 := by
  rw [witness, witnessStart, witnessFinish, hsplit, halve_bitlen hu, powmod_eq_pow_mod _ _ (by omega), zero_add,
    squareLoop_iff]
  simp only [← pow_mul]

/-! ## A prime (R174) -/

/-- A prime has no square roots of 1 but 1 and `p - 1`. -/
theorem nontrivialRoot_of_prime {p : Nat} (hp : p.Prime) (b : Nat) :
    nontrivialRoot p (b % p) (b ^ 2 % p) = false := by
  refine Bool.eq_false_iff.2 fun h => ?_
  obtain ⟨hsquare, hne_one, hne_pred⟩ := nontrivialRoot_iff.1 h
  have hlt : b % p < p := Nat.mod_lt b hp.pos
  have hself : b % p * (b % p) % p = 1 := by rw [← Nat.mul_mod, ← pow_two, hsquare]
  have hdvd : p ∣ (b % p + 1) * (b % p - 1) := by
    have hsub := Nat.dvd_sub_mod (n := p) (b % p * (b % p))
    rwa [hself, ← mul_one 1, Nat.mul_self_sub_mul_self_eq] at hsub
  rcases hp.dvd_mul.1 hdvd with h | h
  · have hle : p ≤ b % p + 1 := Nat.le_of_dvd (Nat.succ_pos _) h
    omega
  · have hsub : b % p - 1 = 0 := Nat.eq_zero_of_dvd_of_lt h (by omega)
    have hzero : b % p = 0 := by omega
    simp [hzero] at hself

theorem witness_prime {a p : Nat} (hp : p.Prime) (ha : ¬ p ∣ a) : witness a p = false := by
  obtain ⟨k, u, hu, hsplit⟩ := Nat.exists_eq_two_pow_mul_odd (Nat.sub_ne_zero_of_lt hp.one_lt)
  have hfermat : a ^ (p - 1) % p = 1 := by
    have hmod := Nat.ModEq.pow_card_sub_one_eq_one hp ((Nat.Prime.coprime_iff_not_dvd hp).2 ha).symm
    rw [hmod, Nat.mod_eq_of_lt hp.one_lt]
  rw [Bool.eq_false_iff, Ne, witness_iff hp.two_le (Nat.odd_iff.1 hu) (hsplit.trans (mul_comm _ _))]
  rintro (⟨i, -, hroot⟩ | hne)
  · rw [pow_succ, ← mul_assoc, pow_mul a _ 2, nontrivialRoot_of_prime hp] at hroot
    cases hroot
  · exact hne hfermat

end Sys2Proof.Machine
end

section
/-! SUPPORT. The moves of the test commands (R45, R160, R170): acceptance and completion with `T`, ISPRIME's immediate decisions
and its trial loop, and what an answer to a draw does. -/

namespace Sys2Proof.Machine

/-! ## From acceptance to `T` (R44, R45) -/

/-- The state a command word meets when it is accepted: written to `CMD`, answered and latched, `rest` still to come (R44
step 1). -/
def cmdWritten (w : Word) (rest : List Event) (s : State) : State :=
  latchCommand w (withReply writeOk (withSchedule rest s))

section Results
variable {i : Instr} {s : State} {b : Bool} {f : InFlight} {w : Word} {rest : List Event}

theorem step_cmd_write_exec (h : s.Idle) (hfree : s.resetHeld = false) (hdec : decode w = .ok i)
    (hsched : s.schedule = .write .word 0x008 w :: rest) : step s = exec i (cmdWritten w rest s) := by
  rw [step_cmd_write_idle h hfree hsched, acceptCommand_ok hdec, cmdWritten]

theorem step_engine_running (hrun : s.Running) (hfree : s.resetHeld = false) (hdec : decode s.cmdreg = .ok i)
    (hf : s.hidden = some f) (hsched : s.schedule = .engine :: rest) :
    step s = commandAdvance i f (withSchedule rest s) := by
  have hrun' : (withSchedule rest s).Running := hrun
  rw [step_free hfree hsched, freeEvent, engineStep_running hrun' hdec, exec_running i hrun' hf]

/-- Acceptance and completion of a command whose step on what it latched writes `b` to `T`. -/
theorem exec_idle_then_completeFlag (h : s.Idle) (hc : commandCheck i s = none)
    (hadv : ∀ t, commandAdvance i (commandLatch i s) t = .next (completeFlag b t)) :
    ∃ t, exec i s = .next t ∧ t = { s with busy := true, hidden := some (commandLatch i s) } ∧
      exec i t = .next (completeFlag b s) := by
  refine ⟨_, exec_idle_of_check_none h hc, rfl, ?_⟩
  rw [exec_running i (running_of_idle h _) rfl, hadv]
  rfl

/-- The same as two steps of the machine: the write of the word to `CMD`, then the engine's step. -/
theorem step_cmd_write_then_completeFlag (h : s.Idle) (hfree : s.resetHeld = false) (hdec : decode w = .ok i)
    (hsched : s.schedule = .write .word 0x008 w :: .engine :: rest) (hc : commandCheck i s = none)
    (hadv : ∀ t, commandAdvance i (commandLatch i s) t = .next (completeFlag b t)) :
    ∃ t, step s = .next t ∧ t.Running ∧ t.draw = s.draw ∧ step t = .next { s with
      cmdreg := w, t := b, busy := false, rwait := false, done := true, hidden := none, draw := none,
      schedule := rest, reply := some writeOk } := by
  have hwritten : (cmdWritten w (.engine :: rest) s).Idle := h
  have hrun := running_of_idle hwritten (commandLatch i (cmdWritten w (.engine :: rest) s))
  have hlatch : commandLatch i (cmdWritten w (.engine :: rest) s) = commandLatch i s := commandLatch_congr fun _ _ => rfl
  refine ⟨_, (step_cmd_write_exec h hfree hdec hsched).trans (exec_idle_of_check_none hwritten ?_), hrun, rfl, ?_⟩
  · exact (commandCheck_congr fun _ _ => rfl).trans hc
  · rw [step_engine_running hrun hfree hdec rfl rfl, hlatch, hadv]
    rfl

end Results

/-! ## WITNESS (R162, R163) -/

theorem checkWitness_one : checkWitness 1 = some .operand := rfl

theorem commandAdvance_witness_latch (ra rm : Reg) (s t : State) :
    commandAdvance (.witness ra rm) (commandLatch (.witness ra rm) s) t =
      .next (completeFlag (witness (readReg s ra) (readReg s rm)) t) := rfl

/-! ## The immediate decisions of ISPRIME (R170, R171) -/

theorem immediateDecision_eq_some_iff {n : Nat} {b : Bool} :
    immediateDecision n = some b ↔
      ((n < 2 ∨ n % 2 = 0 ∧ n ≠ 2) ∧ b = false) ∨ ((n = 2 ∨ n = 3) ∧ b = true) := by
  unfold immediateDecision
  split_ifs <;> cases b <;> simp <;> omega

/-- The numbers of the trial loop. -/
theorem immediateDecision_eq_none_iff {n : Nat} : immediateDecision n = none ↔ 5 ≤ n ∧ n % 2 = 1 := by
  unfold immediateDecision
  split_ifs <;> simp <;> omega

section Isprime
variable {f : InFlight} {k : Nat} {trial : Option Trial}

theorem advanceIsprime_of_decision {b : Bool} (hw : f.work = .isPrime k trial) (hd : immediateDecision f.n = some b)
    (rounds : Nat) (s : State) : advanceIsprime rounds f s = .next (completeFlag b s) := by
  simp only [advanceIsprime, hw, hd]

theorem advanceIsprime_of_trials (hw : f.work = .isPrime k trial) (hd : immediateDecision f.n = none)
    (rounds : Nat) (s : State) : advanceIsprime rounds f s = .next (trialLoop rounds k trial f s) := by
  simp only [advanceIsprime, hw, hd]

/-! ## The trial loop (R170, R173) -/

theorem advanceIsprime_between_trials (hw : f.work = .isPrime k none) (hd : immediateDecision f.n = none)
    (rounds : Nat) (s : State) : advanceIsprime rounds f s = .next (nextTrial rounds k f s) :=
  advanceIsprime_of_trials hw hd rounds s

theorem nextTrial_of_lt {rounds : Nat} (h : k < rounds) (f : InFlight) (s : State) :
    nextTrial rounds k f s = requestDraw (drawBounds f.n) { f with work := .isPrime (k + 1) none } s := if_pos h

theorem nextTrial_of_le {rounds : Nat} (h : rounds ≤ k) (f : InFlight) (s : State) :
    nextTrial rounds k f s = completeFlag true s := if_neg (Nat.not_lt.2 h)

/-- The verdict of a trial under way is that of its witness. -/
theorem trialLoop_some {a : Nat} {w : WitnessWork} (hw : WitnessFits a f.n w) (rounds : Nat) (s : State) :
    trialLoop rounds k (some ⟨a, w⟩) f s =
      if witness a f.n = true then completeFlag false s else nextTrial rounds k f s := by
  rw [trialLoop, hw]

end Isprime

/-! ## The answer to a draw (R166, R167) -/

section Answers
variable {s : State} {b : Bounds} {f : InFlight} {val : Nat} {rest : List Event}

theorem step_answer_waiting (hwait : s.Waiting) (hfree : s.resetHeld = false) (hb : s.draw = some b)
    (hf : s.hidden = some f) (hsched : s.schedule = .answer val :: rest) :
    step s = .next (receiveAnswer val b f (withSchedule rest s)) := by
  have hwait' : (withSchedule rest s).Waiting := hwait
  rw [step_free hfree hsched, freeEvent, answerStep, engineState_of_waiting hwait']
  simp only [withSchedule_draw, withSchedule_hidden, hb, hf]

theorem receiveAnswer_of_mem (hlo : b.lo ≤ val) (hhi : val ≤ b.hi) (f : InFlight) (s : State) :
    receiveAnswer val b f s = receiveDraw (startTrial val f) s :=
  if_neg (by omega)

theorem receiveAnswer_of_not_mem (h : val < b.lo ∨ b.hi < val) (f : InFlight) (s : State) :
    receiveAnswer val b f s = raiseFault .rand s :=
  if_pos h

end Answers

end Sys2Proof.Machine

open Sys2Proof Sys2Proof.Machine

/-- Settles O20: WITNESS completes with the model's `witness` of what it latched. -/
theorem witnessResult : Obligations.WitnessResult := by
  intro ra rm s u k hs hn hu hsplit
  obtain ⟨t, haccept, ht, hdone⟩ := exec_idle_then_completeFlag (i := .witness ra rm) hs (checkWitness_ok hn)
    (commandAdvance_witness_latch ra rm s)
  refine ⟨t, _, haccept, ht, hdone, ?_⟩
  simp only [witness_iff hn hu hsplit, nontrivialRoot_iff]

/-- Settles O29: the verdict on a prime is false unless the base is a multiple of it. -/
theorem witnessNeverAccusesPrime : Obligations.WitnessNeverAccusesPrime := by
  intro ra rm s hs hp hdvd
  obtain ⟨t, haccept, -, hdone⟩ := exec_idle_then_completeFlag (i := .witness ra rm) hs (checkWitness_ok hp.two_le)
    (commandAdvance_witness_latch ra rm s)
  rw [witness_prime hp hdvd] at hdone
  exact ⟨t, haccept, hdone⟩

/-- Settles O21: the two refusals are failed operand checks; from 2 on the check passes. -/
theorem witnessOperandChecks : Obligations.WitnessOperandChecks := by
  intro ra rm w s rest hs hfree hdec hsched
  have hwritten : (cmdWritten w rest s).Idle := hs
  have hcheck : commandCheck (.witness ra rm) (cmdWritten w rest s) = checkWitness (readReg s rm) := rfl
  refine ⟨fun hn => ?_, fun hn => ?_, fun later hrest hn => ?_⟩
  · rw [hn, checkWitness_zero] at hcheck
    exact (step_cmd_write_exec hs hfree hdec hsched).trans (exec_idle_of_check_some hwritten hcheck)
  · rw [hn, checkWitness_one] at hcheck
    exact (step_cmd_write_exec hs hfree hdec hsched).trans (exec_idle_of_check_some hwritten hcheck)
  · obtain ⟨t, haccept, hrun, -, hdone⟩ := step_cmd_write_then_completeFlag hs hfree hdec (hrest ▸ hsched)
      (checkWitness_ok hn) (commandAdvance_witness_latch ra rm s)
    exact ⟨t, haccept, hrun, hdone⟩

/-- Settles O22: ISPRIME has no operand check, and its first engine step looks at the immediate decisions. -/
theorem isprimeImmediateDecisions : Obligations.IsprimeImmediateDecisions := by
  intro rm rounds s hs
  refine ⟨_, exec_idle_of_check_none hs rfl, rfl, fun b hb => ?_⟩
  rw [exec_running _ (running_of_idle hs _) rfl]
  have hd : immediateDecision (readReg s rm) = some b := immediateDecision_eq_some_iff.2 hb
  exact advanceIsprime_of_decision (f := latchIsprime (readReg s rm)) rfl hd rounds _

/-- Settles O23: with no rounds the trial loop is over before its first draw. -/
theorem isprimeZeroRounds : Obligations.IsprimeZeroRounds := by
  intro rm w s rest hs hfree hdec hsched hn hodd
  have hd : immediateDecision (readReg s rm) = none := immediateDecision_eq_none_iff.2 ⟨hn, hodd⟩
  exact step_cmd_write_then_completeFlag hs hfree hdec hsched rfl
    (advanceIsprime_between_trials (f := latchIsprime (readReg s rm)) rfl hd 0)

/-- Settles O24: the loop's next step without a trial in progress is the request. -/
theorem isprimeRequestsDraw : Obligations.IsprimeRequestsDraw := by
  intro rm rounds i a b n s hrun hf hn hodd hi
  have hd : immediateDecision n = none := immediateDecision_eq_none_iff.2 ⟨hn, hodd⟩
  rw [exec_running _ hrun hf, commandAdvance, advanceIsprime_between_trials rfl hd, nextTrial_of_lt hi]
  rfl

/-- Settles O26: the trial's verdict, then the trials that are left. -/
theorem isprimeEndsTrial : Obligations.IsprimeEndsTrial := by
  intro rm rounds i a b n val w s hrun hf hn hodd hw
  have hd : immediateDecision n = none := immediateDecision_eq_none_iff.2 ⟨hn, hodd⟩
  rw [exec_running _ hrun hf, commandAdvance, advanceIsprime_of_trials rfl hd, trialLoop_some hw]
  split_ifs with hc hi
  · rfl
  · rw [nextTrial_of_lt hi]
    rfl
  · rw [nextTrial_of_le (Nat.le_of_not_lt hi)]

/-- Settles O27: the receipt of an answer that is not out of bounds. -/
theorem answerInBoundsStartsTrial : Obligations.AnswerInBoundsStartsTrial := by
  intro s rest a b n i lo hi val hwait hfree hdraw hf hsched hlo hhi
  rw [step_answer_waiting hwait hfree hdraw hf hsched, receiveAnswer_of_mem hlo hhi]
  rfl

/-- Settles O28: the receipt of an answer that is out of bounds is the fault. -/
theorem answerOutOfBoundsFaults : Obligations.AnswerOutOfBoundsFaults := by
  intro s rest f lo hi val hwait hfree hdraw hf hsched hout
  rw [step_answer_waiting hwait hfree hdraw hf hsched, receiveAnswer_of_not_mem hout]
  rfl
end

section
/-! SUPPORT. ISPRIME on a prime (R174): only the engine's step completes a command, and its trial loop has no composite
verdict. -/

namespace Sys2Proof.Machine

/-! ## Who completes a command (R45) -/

section Completions
variable {e : Event} {s t : State}

theorem accept_done (c : Option ErrCode) (f : InFlight) (s : State) : (accept c f s).done = s.done := by
  cases c <;> rfl

/-- Of all events only the engine's own sets `DONE`. -/
theorem EventMove.engine_of_done (h : EventMove e s t) (hs : s.done = false) (ht : t.done = true) : e = .engine := by
  have hne : t.done ≠ s.done := by simp [hs, ht]
  cases h with
  | command => rfl
  | control v => simp [hs] at ht
  | accepted w c f => exact absurd ((accept_done c f _).symm.trans ht) Bool.false_ne_true
  | hardReset => cases ht
  | softReset => cases ht
  | illegal => cases ht
  | quiet => exact absurd rfl hne
  | released => exact absurd rfl hne
  | busyFault => exact absurd rfl hne
  | limbWrite => exact absurd rfl hne
  | pass => exact absurd rfl hne
  | drawRefused => exact absurd rfl hne
  | drawTaken => exact absurd rfl hne

theorem engineStep_of_takeEvent_done (hfree : s.resetHeld = false) (hs : s.done = false) (ht : t.done = true)
    (h : takeEvent e s = .next t) : engineStep s = .next t := by
  cases (EventMove.of_takeEvent h).engine_of_done hs ht
  rwa [takeEvent_free _ hfree] at h

/-- A step that completes a command is the engine's, whatever was scheduled. -/
theorem engineStep_of_step_done (hfree : s.resetHeld = false) (hs : s.done = false) (ht : t.done = true)
    (h : step s = .next t) : ∃ rest, engineStep (withSchedule rest s) = .next t := by
  cases hsched : s.schedule with
  | nil =>
    rw [step_of_nil hsched] at h
    exact ⟨s.schedule, engineStep_of_takeEvent_done hfree hs ht h⟩
  | cons e rest =>
    rw [step_of_cons hsched] at h
    exact ⟨rest, engineStep_of_takeEvent_done hfree hs ht h⟩

end Completions

/-! ## The trial loop on a prime (R170, R174) -/

section Prime
variable {s t : State} {f : InFlight} {rm : Reg} {rounds : Nat}

theorem immediateDecision_prime {p : Nat} {b : Bool} (hp : p.Prime) (h : immediateDecision p = some b) : b = true := by
  obtain ⟨hp', -⟩ | ⟨-, hb⟩ := immediateDecision_eq_some_iff.1 h
  · have htwo := hp.two_le
    have hodd := hp.eq_two_or_odd
    omega
  · exact hb

/-- A witness in `[2, n - 2]` is no multiple of `n`. -/
theorem TrialFits.not_dvd {n : Nat} {tr : Trial} (h : TrialFits n tr) : ¬ n ∣ tr.a := by
  have hlo := h.lo_le
  have hhi := h.le_hi
  exact Nat.not_dvd_of_pos_of_lt (by omega) (by omega)

/-- On a prime no trial ends the loop. -/
theorem trialLoop_prime {trial : Option Trial} (hp : f.n.Prime) (htrial : ∀ tr, trial = some tr → TrialFits f.n tr)
    (rounds k : Nat) (s : State) : trialLoop rounds k trial f s = nextTrial rounds k f s := by
  cases trial with
  | none => rfl
  | some tr =>
    have hfits := htrial tr rfl
    rw [trialLoop_some hfits.fits, witness_prime hp hfits.not_dvd, if_neg Bool.false_ne_true]

/-- The engine's step of ISPRIME on a prime: `T = 1`, or the request for another draw. -/
theorem State.Commanded.isprime_prime_step (hs : s.Commanded (.isprime rm rounds)) (hf : s.hidden = some f) (hp : f.n.Prime)
    (h : engineStep s = .next t) : t = completeFlag true s ∨ t.done = false := by
  obtain ⟨i, hrun, hdec, hx⟩ | ⟨-, rfl⟩ := engineStep_cases h
  · cases hdec.symm.trans hs.cmd
    rw [exec_running _ hrun hf] at hx
    obtain ⟨k, trial, hw, ⟨b, hb, rfl⟩ | ⟨-, rfl⟩⟩ := advanceIsprime_cases hx
    · exact .inl (immediateDecision_prime hp hb ▸ rfl)
    · obtain ⟨_, _, hw', -, -, htrial⟩ := hs.hiddenFits hf
      cases hw.symm.trans hw'
      rw [trialLoop_prime hp fun tr htr => (htrial tr htr).2]
      obtain ⟨-, ht⟩ | ⟨-, ht⟩ := nextTrial_cases rounds k f s <;> rw [ht]
      · exact .inr hs.not_done
      · exact .inl rfl
  · exact .inr hs.not_done

end Prime

end Sys2Proof.Machine

open Sys2Proof Sys2Proof.Machine

/-- Settles O30: the completing step is the engine's, and the invariant makes every trial one with a witness that a prime does
not divide, so that Fermat's theorem and the two square roots of 1 leave no composite verdict. -/
theorem isprimeNeverRejectsPrime : Obligations.IsprimeNeverRejectsPrime := by
  intro s t f rm rounds hs hf hdec hp h ht
  have hfree : s.resetHeld = false := by
    cases hr : s.resetHeld with
    | false => rfl
    | true => rw [hs.held_reset hr] at hf; cases hf
  have hdone := hs.flags.busy_done (hs.busy_of_hidden hf)
  obtain ⟨rest, hstep⟩ := engineStep_of_step_done hfree hdone ht h
  have hc : (withSchedule rest s).Commanded (.isprime rm rounds) := ⟨hs.withSchedule rest, hfree, hdone, hdec⟩
  obtain rfl | hnot := hc.isprime_prime_step hf hp hstep
  · rfl
  · simp [hnot] at ht
end

section
/-! SUPPORT. ISPRIME ends (R176): a round is the answer to a request and the engine's step after it, each round starts one trial,
and what is left of the schedule after the end changes nothing. -/

namespace Sys2Proof.Machine

/-! ## After the end (log 8, log 13) -/

section Ended
variable {s : State} {rest : List Event}

theorem steps_succ_of_step {m : Nat} {s t : State} (h : step s = .next t) : steps (m + 1) s = steps m t := by
  simp only [steps, h]

theorem answerStep_of_not_waiting (h : engineState s ≠ .waiting) (val : Nat) : answerStep val s = .next s := by
  unfold answerStep
  cases he : engineState s with
  | waiting => exact absurd he h
  | idle => rfl
  | running => rfl
  | faulted => rfl

/-- Without a command in flight neither the engine nor the random source has a step. -/
theorem step_of_not_busy {e : Event} (hb : s.busy = false) (hfree : s.resetHeld = false)
    (he : e = .engine ∨ ∃ v, e = .answer v) (hsched : s.schedule = e :: rest) : step s = .next (withSchedule rest s) := by
  have hnot : ¬ (withSchedule rest s).busy = true := Bool.eq_false_iff.1 hb
  rw [step_free hfree hsched]
  obtain rfl | ⟨v, rfl⟩ := he
  · exact engineStep_of_not_running fun h => hnot (engineState_running_iff.1 h).1
  · exact answerStep_of_not_waiting (fun h => hnot (engineState_waiting_iff.1 h).1) v

theorem steps_of_not_busy {es : List Event} (hes : ∀ e ∈ es, e = .engine ∨ ∃ v, e = .answer v) (hb : s.busy = false)
    (hfree : s.resetHeld = false) (hsched : s.schedule = es) : ∃ t, steps es.length s = .next t ∧ t.busy = false := by
  induction es generalizing s with
  | nil => exact ⟨s, rfl, hb⟩
  | cons e es ih =>
    obtain ⟨he, hes⟩ := List.forall_mem_cons.1 hes
    rw [List.length_cons, steps_succ_of_step (step_of_not_busy hb hfree he hsched)]
    exact ih hes (s := withSchedule es s) hb hfree rfl

end Ended

/-! ## The rounds (R170, R176) -/

/-- The answer to each request and the engine's step after it. -/
def drawRounds (vals : List Nat) : List Event :=
  vals.flatMap fun v => [.answer v, .engine]

theorem drawRounds_cons (v : Nat) (vals : List Nat) : drawRounds (v :: vals) = .answer v :: .engine :: drawRounds vals := rfl

theorem length_drawRounds (vals : List Nat) : (drawRounds vals).length = 2 * vals.length := by
  simp [drawRounds, Nat.mul_comm]

theorem mem_drawRounds {vals : List Nat} {e : Event} (he : e ∈ drawRounds vals) : e = .engine ∨ ∃ v, e = .answer v := by
  obtain ⟨v, -, he⟩ := List.mem_flatMap.1 he
  rcases List.mem_pair.1 he with rfl | rfl
  · exact .inr ⟨v, rfl⟩
  · exact .inl rfl

/-- ISPRIME is running with `k` trials started. -/
structure State.RunsTrials (s : State) (rm : Reg) (rounds k : Nat) : Prop where
  running : s.Running
  released : s.resetHeld = false
  cmd : decode s.cmdreg = .ok (.isprime rm rounds)
  hidden : ∃ f trial, s.hidden = some f ∧ f.work = .isPrime k trial

/-- ISPRIME waits for the witness of trial `k`. -/
structure State.AwaitsWitness (s : State) (rm : Reg) (rounds k : Nat) : Prop where
  waiting : s.Waiting
  released : s.resetHeld = false
  cmd : decode s.cmdreg = .ok (.isprime rm rounds)
  draw : ∃ b, s.draw = some b
  hidden : ∃ f trial, s.hidden = some f ∧ f.work = .isPrime k trial

section Rounds
variable {s : State} {rm : Reg} {rounds k : Nat} {rest : List Event}

/-- The engine's step ends the command, or requests the witness of trial `k + 1`. -/
theorem State.RunsTrials.engine_step (hs : s.RunsTrials rm rounds k) (hsched : s.schedule = .engine :: rest) :
    ∃ t, step s = .next t ∧ t.schedule = rest ∧ t.resetHeld = false ∧
      (t.busy = false ∨ k < rounds ∧ t.AwaitsWitness rm rounds (k + 1)) := by
  obtain ⟨f, trial, hf, hw⟩ := hs.hidden
  obtain ⟨hbusy, -, herr⟩ := hs.running
  rw [step_engine_running hs.running hs.released hs.cmd hf hsched, commandAdvance]
  cases hd : immediateDecision f.n with
  | some b => exact ⟨_, advanceIsprime_of_decision hw hd rounds _, rfl, hs.released, .inl rfl⟩
  | none =>
    refine ⟨_, advanceIsprime_of_trials hw hd rounds _, ?_⟩
    obtain ⟨b, ht⟩ | ⟨hk, ht⟩ := trialLoop_cases rounds k trial f (withSchedule rest s) <;> rw [ht]
    · exact ⟨rfl, hs.released, .inl rfl⟩
    · exact ⟨rfl, hs.released, .inr ⟨hk, ⟨hbusy, rfl, herr⟩, hs.released, hs.cmd, ⟨_, rfl⟩, _, _, rfl, rfl⟩⟩

theorem startTrial_work {f : InFlight} {trial : Option Trial} (hw : f.work = .isPrime k trial) (val : Nat) :
    (startTrial val f).work = .isPrime k (some ⟨val, witnessStart f.n⟩) := by
  simp only [startTrial, hw]

/-- The answer faults the engine, or starts the trial. -/
theorem State.AwaitsWitness.answer_step {val : Nat} (hs : s.AwaitsWitness rm rounds k)
    (hsched : s.schedule = .answer val :: rest) :
    ∃ t, step s = .next t ∧ t.schedule = rest ∧ t.resetHeld = false ∧ (t.busy = false ∨ t.RunsTrials rm rounds k) := by
  obtain ⟨b, hb⟩ := hs.draw
  obtain ⟨f, trial, hf, hw⟩ := hs.hidden
  obtain ⟨hbusy, -, herr⟩ := hs.waiting
  refine ⟨_, step_answer_waiting hs.waiting hs.released hb hf hsched, ?_⟩
  by_cases hout : val < b.lo ∨ b.hi < val
  · rw [receiveAnswer_of_not_mem hout]
    exact ⟨rfl, hs.released, .inl rfl⟩
  · rw [receiveAnswer_of_mem (by omega) (by omega)]
    exact ⟨rfl, hs.released, .inr ⟨⟨hbusy, rfl, herr⟩, hs.released, hs.cmd, _, _, rfl, startTrial_work hw val⟩⟩

/-- With an answer for each trial not yet started, ISPRIME has ended by the end of the rounds. -/
theorem State.RunsTrials.ends {vals : List Nat} (hs : s.RunsTrials rm rounds k) (hk : rounds ≤ k + vals.length)
    (hsched : s.schedule = .engine :: drawRounds vals) :
    ∃ t, steps ((drawRounds vals).length + 1) s = .next t ∧ t.busy = false := by
  induction vals generalizing s k with
  | nil =>
    obtain ⟨t, hstep, -, -, hb | ⟨hlt, -⟩⟩ := hs.engine_step hsched
    · exact ⟨t, steps_succ_of_step hstep, hb⟩
    · exact absurd hlt hk.not_gt
  | cons v vals ih =>
    obtain ⟨t, hstep, ht, hfree, hb | ⟨-, hwait⟩⟩ := hs.engine_step hsched <;> rw [steps_succ_of_step hstep]
    · exact steps_of_not_busy (fun _ => mem_drawRounds) hb hfree ht
    obtain ⟨u, hanswer, hu, hfree, hb | hrun⟩ := hwait.answer_step ht <;>
      rw [drawRounds_cons, List.length_cons, steps_succ_of_step hanswer]
    · exact steps_of_not_busy (List.forall_mem_cons.2 ⟨.inl rfl, fun _ => mem_drawRounds⟩) hb hfree hu
    · exact ih hrun (by rw [List.length_cons] at hk; omega) hu

end Rounds

end Sys2Proof.Machine

open Sys2Proof Sys2Proof.Machine

/-- Settles O31: each round starts one more trial, and the loop ends when `rounds` are started. -/
theorem isprimeEndsAfterItsDraws : Obligations.IsprimeEndsAfterItsDraws := by
  intro s rm rounds vals hs hrun hfree hdec hlen hsched
  obtain ⟨f, hf⟩ := Option.isSome_iff_exists.1 (hs.busy_hidden.symm.trans hrun.1)
  have hc : s.Commanded (.isprime rm rounds) := ⟨hs, hfree, hs.flags.busy_done hrun.1, hdec⟩
  obtain ⟨k, trial, hw, -⟩ := hc.hiddenFits hf
  have hends := State.RunsTrials.ends ⟨hrun, hfree, hdec, f, trial, hf, hw⟩ (hlen ▸ Nat.le_add_left _ k) hsched
  rwa [length_drawRounds, hlen] at hends
end

section
/-! SUPPORT. The text codec (R224 to R227): `ENCODE` writes the masked codes as base-256 digits and `DECODE` reads the digits
back, so the round trip is that of the digits of a number. -/

namespace Sys2Proof.Machine

/-! ## One character -/

/-- Masking a character's code, which is also how it is unmasked (R224, R225). -/
def maskCode (c : Nat) : Nat :=
  maskConstant ^^^ c

@[simp] theorem maskCode_maskCode (c : Nat) : maskCode (maskCode c) = c :=
  Nat.xor_xor_cancel_left maskConstant c

theorem maskCode_lt {c : Nat} (h : c < 256) : maskCode c < 256 :=
  Nat.xor_lt_two_pow (n := 8) (by decide) h

@[simp] theorem maskCode_eq_zero_iff {c : Nat} : maskCode c = 0 ↔ c = maskConstant :=
  Nat.xor_eq_zero_iff.trans eq_comm

/-! ## The encoding (R224, R226) -/

theorem encodeText_cons_of_ok {c m : Nat} {cs : List Nat} (hc : c < 256) (h : encodeText cs = .ok m) :
    encodeText (c :: cs) = .ok (maskCode c + 256 * m) := by
  simp only [encodeText, if_pos hc, h, maskCode]

theorem encodeText_cons_of_error {c : Nat} {cs : List Nat} {e : HostError} (hc : c < 256) (h : encodeText cs = .error e) :
    encodeText (c :: cs) = .error e := by
  simp only [encodeText, if_pos hc, h]

theorem encodeText_cons_of_wide {c : Nat} (cs : List Nat) (hc : 256 ≤ c) :
    encodeText (c :: cs) = .error .encodingOverflow := by
  simp only [encodeText, if_neg hc.not_gt]

/-- A text of bytes encodes to the number whose base-256 digits are the masked codes, lowest first. -/
theorem encodeText_eq_ofDigits {cs : List Nat} (h : ∀ c ∈ cs, c < 256) :
    encodeText cs = .ok (Nat.ofDigits 256 (cs.map maskCode)) := by
  induction cs with
  | nil => rfl
  | cons c cs ih =>
    obtain ⟨hc, hcs⟩ := List.forall_mem_cons.1 h
    rw [encodeText_cons_of_ok hc (ih hcs), List.map_cons, Nat.ofDigits_cons]

theorem encodeText_of_mem_wide {c : Nat} {cs : List Nat} (hmem : c ∈ cs) (hc : 256 ≤ c) :
    encodeText cs = .error .encodingOverflow := by
  induction cs with
  | nil => cases hmem
  | cons d cs ih =>
    by_cases hd : d < 256
    · have hcs : c ∈ cs := (List.mem_cons.1 hmem).resolve_left (by omega)
      exact encodeText_cons_of_error hd (ih hcs)
    · exact encodeText_cons_of_wide cs (Nat.le_of_not_lt hd)

/-! ## The decoding (R225) -/

/-- A digit takes eight bits and the fuel pays for one, so `k` digits are enough for `k` bits. -/
theorem decodeDigits_eq_digits {k n : Nat} (h : n < 2 ^ k) : decodeDigits k n = (Nat.digits 256 n).map maskCode := by
  induction k generalizing n with
  | zero =>
    have hzero : n = 0 := by omega
    rw [hzero, Nat.digits_zero]
    rfl
  | succ k ih =>
    by_cases hn : n = 0
    · simp [decodeDigits, hn]
    · have hrest : n / 256 < 2 ^ k := by omega
      rw [decodeDigits, if_neg hn, ih hrest, Nat.digits_def' (by decide) (Nat.pos_of_ne_zero hn), List.map_cons, maskCode]

theorem decodeText_eq_digits (n : Nat) : decodeText n = (Nat.digits 256 n).map maskCode :=
  decodeDigits_eq_digits (bitlen_le_iff.1 le_rfl)

/-- The highest digit is not 0 when the last character is not the mask constant, so no digit is lost (R227). -/
theorem decodeText_ofDigits {cs : List Nat} (h : ∀ c ∈ cs, c < 256) (hlast : cs.getLast? ≠ some maskConstant) :
    decodeText (Nat.ofDigits 256 (cs.map maskCode)) = cs := by
  have hdigits : Nat.digits 256 (Nat.ofDigits 256 (cs.map maskCode)) = cs.map maskCode := by
    refine Nat.digits_ofDigits 256 (by decide) _ (List.forall_mem_map.2 fun c hc => maskCode_lt (h c hc)) fun hne hzero => ?_
    rw [List.getLast_map, maskCode_eq_zero_iff] at hzero
    exact hlast (hzero ▸ List.getLast?_eq_some_getLast _)
  rw [decodeText_eq_digits, hdigits, List.map_map]
  simp [Function.comp_def]

end Sys2Proof.Machine

open Sys2Proof Sys2Proof.Machine

/-- Settles O57: the encoding of a text of bytes is the number with the masked codes as digits. -/
theorem textCodecRoundTrip : Obligations.TextCodecRoundTrip := fun _ =>
  ⟨fun h => ⟨_, encodeText_eq_ofDigits h, decodeText_ofDigits h⟩, fun _ => encodeText_of_mem_wide⟩
end

section
/-! SUPPORT. The cipher (R220 to R223): the exponent of `DECRYPT` is `p - 1 - a`, and Fermat's theorem cancels the two powers
of the generator. -/

namespace Sys2Proof.Machine

/-! ## The exponent formed in the engine (R221) -/

theorem modsub_eq_sub {a b n : Nat} (hab : b ≤ a) (ha : a < n) : modsub a b n = a - b := by
  rw [modsub, Nat.mod_eq_of_lt ha, Nat.mod_eq_of_lt (hab.trans_lt ha), if_pos hab]

theorem modsub_zero_one {n : Nat} (hn : 1 < n) : modsub 0 1 n = n - 1 := by
  rw [modsub, Nat.zero_mod, Nat.mod_eq_of_lt hn, if_neg (by decide), Nat.zero_add]

/-- The two `MODSUB` of `DECRYPT` give `p - 1 - a`. -/
theorem modsub_modsub_zero_one {p a : Nat} (hp : 1 < p) (ha : a ≤ p - 1) :
    modsub (modsub 0 1 p) a p = p - 1 - a := by
  rw [modsub_zero_one hp, modsub_eq_sub ha (Nat.sub_one_lt_of_lt hp)]

/-! ## The two directions (R220 to R223) -/

section Cipher
variable {p m : Nat}

theorem encryptValue_of_le {pub : PublicKey} (h : pub.p ≤ m) (k : Nat) :
    encryptValue m pub k = .error .messageTooLarge := if_pos h

/-- `ENCRYPT` as residues of powers: `gamma = r^k` and `delta = m * (r^a)^k`. -/
theorem encryptValue_keysOf (hm : m < p) (r a k : Nat) :
    encryptValue m (keysOf p r a).2 k = .ok ⟨r ^ k % p, m * (r ^ a) ^ k % p⟩ := by
  have hp : 0 < p := Nat.zero_lt_of_lt hm
  simp only [encryptValue, keysOf, if_neg hm.not_ge, powmod_eq_pow_mod _ _ hp, ← Nat.pow_mod, modmul, Nat.mul_mod_mod]

/-- `DECRYPT` as the residue of `gamma^(p - 1 - a) * delta`. -/
theorem decryptValue_keysOf {a : Nat} (hp : 1 < p) (ha : a ≤ p - 1) (r : Nat) (c : Ciphertext) :
    decryptValue c (keysOf p r a).1 = .ok (c.gamma ^ (p - 1 - a) * c.delta % p) := by
  have hpos : 0 < p := Nat.zero_lt_of_lt hp
  simp only [decryptValue, keysOf, if_neg hpos.ne', modsub_modsub_zero_one hp ha, powmod_eq_pow_mod _ _ hpos, modmul,
    Nat.mod_mul_mod]

/-- The correctness identity of R223. -/
theorem decryption_modEq {r a : Nat} (hp : p.Prime) (hr : ¬ p ∣ r) (ha : a ≤ p - 1) (k m : Nat) :
    (r ^ k % p) ^ (p - 1 - a) * (m * (r ^ a) ^ k % p) ≡ m [MOD p] := by
  have hfermat : r ^ (p - 1) ≡ 1 [MOD p] :=
    Nat.ModEq.pow_card_sub_one_eq_one hp ((Nat.Prime.coprime_iff_not_dvd hp).2 hr).symm
  have hpowers : (r ^ k) ^ (p - 1 - a) * (r ^ a) ^ k = (r ^ (p - 1)) ^ k := by
    rw [pow_right_comm, ← mul_pow, ← pow_add, Nat.sub_add_cancel ha]
  calc (r ^ k % p) ^ (p - 1 - a) * (m * (r ^ a) ^ k % p)
      ≡ (r ^ k) ^ (p - 1 - a) * (m * (r ^ a) ^ k) [MOD p] := ((Nat.mod_modEq _ p).pow _).mul (Nat.mod_modEq _ p)
    _ = m * (r ^ (p - 1)) ^ k := by rw [mul_left_comm, hpowers]
    _ ≡ m * 1 ^ k [MOD p] := (hfermat.pow k).mul_left m
    _ = m := by rw [one_pow, mul_one]

end Cipher

end Sys2Proof.Machine

open Sys2Proof Sys2Proof.Machine

/-- Settles O58: both values are residues of powers of the generator, and R223's identity brings the message back. -/
theorem decryptUndoesEncrypt : Obligations.DecryptUndoesEncrypt := by
  intro p r a k m hp hr ha
  refine ⟨fun hm => ⟨_, encryptValue_keysOf hm r a k, ?_⟩, fun hm => encryptValue_of_le hm k⟩
  rw [decryptValue_keysOf hp.one_lt ha, decryption_modEq hp hr ha k m, Nat.mod_eq_of_lt hm]
end

section
/-! SUPPORT. The engine always goes on (R250, R308): what a command needs of its hidden state to have a next step, and where
else a step could stop. -/

namespace Sys2Proof.Machine

/-! ## The commands in flight (R42, R45) -/

section Advance
variable {f : InFlight}

theorem completeField_of_field (hw : f.work = .field) (rd : Reg) (v : Nat) (s : State) :
    completeField rd v f s = .next (completeReg rd v s) := by
  simp only [completeField, hw]

theorem completePow_of_pow {w : PowWork} (hw : f.work = .pow w) (rd : Reg) (s : State) :
    completePow rd f s = .next (completeReg rd (powFinish f.n w) s) := by
  simp only [completePow, hw]

theorem completeWitness_of_witness {w : WitnessWork} (hw : f.work = .witness w) (s : State) :
    completeWitness f s = .next (completeFlag (witnessFinish f.a f.n w) s) := by
  simp only [completeWitness, hw]

theorem advanceIsprime_answers {k : Nat} {trial : Option Trial} (hw : f.work = .isPrime k trial) (rounds : Nat)
    (s : State) : ∃ t, advanceIsprime rounds f s = .next t := by
  cases hd : immediateDecision f.n with
  | some b => exact ⟨_, advanceIsprime_of_decision hw hd rounds s⟩
  | none => exact ⟨_, advanceIsprime_of_trials hw hd rounds s⟩

/-- A command whose hidden state is its own has a next visible step, in any state. -/
theorem HiddenFits.advance_answers {W : Nat} {i : Instr} (h : HiddenFits W i f) (s : State) :
    ∃ t, commandAdvance i f s = .next t := by
  cases i with
  | modred => exact ⟨_, completeField_of_field h.2 _ _ s⟩
  | modadd => exact ⟨_, completeField_of_field h.2 _ _ s⟩
  | modsub => exact ⟨_, completeField_of_field h.2 _ _ s⟩
  | modmul => exact ⟨_, completeField_of_field h.2 _ _ s⟩
  | powmod =>
    obtain ⟨-, w, hw, -⟩ := h
    exact ⟨_, completePow_of_pow hw _ s⟩
  | witness =>
    obtain ⟨-, w, hw, -⟩ := h
    exact ⟨_, completeWitness_of_witness hw s⟩
  | isprime rm rounds =>
    obtain ⟨k, trial, hw, -⟩ := h
    exact advanceIsprime_answers hw rounds s

end Advance

/-! ## The host's writes, which answer in any state (R62) -/

section Writes

theorem acceptCommand_answers {s : State} (he : engineState s = .idle) (w : Word) :
    ∃ t, acceptCommand w s = .next t := by
  cases hdec : decode w with
  | error e => exact ⟨_, acceptCommand_error hdec s⟩
  | ok i =>
    rw [acceptCommand_ok hdec]
    exact ⟨_, exec_of_engineState_idle (s := latchCommand w s) i he⟩

theorem commandWrite_answers (w : Word) (s : State) : ∃ t, commandWrite w s = .next t := by
  unfold commandWrite
  split_ifs with herr hb
  · exact ⟨_, rfl⟩
  · exact ⟨_, rfl⟩
  · have hidle : engineState (withReply writeOk s) = .idle :=
      engineState_idle_iff.2 ⟨Bool.eq_false_iff.2 herr, Bool.eq_false_iff.2 hb⟩
    exact acceptCommand_answers hidle w

theorem hostWrite_answers (width : AccessWidth) (addr : Nat) (v : Word) (s : State) :
    ∃ t, hostWrite width addr v s = .next t := by
  unfold hostWrite
  cases portEntry width s.limbs addr with
  | none => exact ⟨_, rfl⟩
  | some entry =>
    cases entry with
    | cmd => exact commandWrite_answers v s
    | ctrl => exact ⟨_, rfl⟩
    | status => exact ⟨_, rfl⟩
    | caps => exact ⟨_, rfl⟩
    | limb i j => exact ⟨_, rfl⟩

end Writes

/-! ## The events in a state of the invariant (R310) -/

section Events
variable {s : State}

theorem State.Inv.hidden_of_busy (hs : s.Inv) (hb : s.busy = true) : ∃ f, s.hidden = some f :=
  Option.isSome_iff_exists.1 (hs.busy_hidden.symm.trans hb)

theorem State.Inv.draw_of_rwait (hs : s.Inv) (hr : s.rwait = true) : ∃ b, s.draw = some b :=
  Option.isSome_iff_exists.1 (hs.rwait_draw.symm.trans hr)

/-- A running engine has the hidden state of the command in `CMDREG`. -/
theorem State.Inv.engineStep_answers (hs : s.Inv) : ∃ t, Machine.engineStep s = .next t := by
  by_cases he : engineState s = .running
  · have hrun := engineState_running_iff.1 he
    obtain ⟨f, hf⟩ := hs.hidden_of_busy hrun.1
    obtain ⟨i, hdec, hfits⟩ := hs.in_flight f hf
    rw [engineStep_running hrun hdec, exec_running i hrun hf]
    exact hfits.advance_answers s
  · exact ⟨s, engineStep_of_not_running he⟩

theorem answerStep_waiting {b : Bounds} {f : InFlight} (hw : s.Waiting) (hd : s.draw = some b) (hf : s.hidden = some f)
    (val : Nat) : answerStep val s = .next (receiveAnswer val b f s) := by
  simp only [answerStep, engineState_of_waiting hw, hd, hf]

/-- A waiting engine has its request and the hidden state that made it. -/
theorem State.Inv.answerStep_answers (hs : s.Inv) (val : Nat) : ∃ t, Machine.answerStep val s = .next t := by
  by_cases he : engineState s = .waiting
  · have hw := engineState_waiting_iff.1 he
    have ⟨hb, hr, _⟩ := hw
    obtain ⟨f, hf⟩ := hs.hidden_of_busy hb
    obtain ⟨b, hd⟩ := hs.draw_of_rwait hr
    exact ⟨_, answerStep_waiting hw hd hf val⟩
  · exact ⟨s, answerStep_of_not_waiting he val⟩

theorem State.Inv.freeEvent_answers (hs : s.Inv) (e : Event) : ∃ t, Machine.freeEvent e s = .next t := by
  cases e with
  | write width addr v => exact hostWrite_answers width addr v s
  | engine => exact hs.engineStep_answers
  | answer val => exact hs.answerStep_answers val
  | read => exact ⟨_, rfl⟩
  | pass => exact ⟨_, rfl⟩
  | resetAssert => exact ⟨_, rfl⟩
  | resetRelease => exact ⟨_, rfl⟩

theorem State.Inv.takeEvent_answers (hs : s.Inv) (e : Event) : ∃ t, Machine.takeEvent e s = .next t := by
  cases hr : s.resetHeld with
  | true => exact ⟨_, takeEvent_held e hr⟩
  | false =>
    rw [takeEvent_free e hr]
    exact hs.freeEvent_answers e

end Events

end Sys2Proof.Machine

open Sys2Proof Sys2Proof.Machine

/-- Settles O41: only the engine's step and the answer to a draw can stop, and the invariant gives each what it needs: the
hidden state of the command in `CMDREG`, and the outstanding request. -/
theorem stepNeverStops : Obligations.StepNeverStops := by
  intro s hs
  cases hsched : s.schedule with
  | nil =>
    rw [step_of_nil hsched]
    exact hs.takeEvent_answers .engine
  | cons e rest =>
    rw [step_of_cons hsched]
    exact (hs.withSchedule rest).takeEvent_answers e
end

section
/-! SUPPORT. The faulted engine (R258, R260): what each event does to it, whatever its other flags, since the gates look at `ERR`
first (R254); and the interrupt output, which shows `ERR` to the host (R262, R263). -/

namespace Sys2Proof.Machine

section Faulted
variable {s t : State}

/-- A host write to a faulted engine is refused or is one of `CTRL`. -/
theorem hostWrite_of_err {width : AccessWidth} {addr : Nat} {v : Word} (herr : s.err = true)
    (h : hostWrite width addr v s = .next t) :
    t = withReply writeBuserr s ∨
      (width = .word ∧ addr = ctrlAddr ∧ t = withReply writeOk (controlWrite v s)) := by
  cases hp : portEntry width s.limbs addr with
  | none => rw [hostWrite_of_unmapped hp] at h; cases h; exact .inl rfl
  | some entry =>
    obtain ⟨rfl, rfl⟩ := portEntry_eq_some hp
    simp only [hostWrite, hp, commandWrite, windowWrite, if_pos herr] at h
    cases entry with
    | ctrl => cases h; exact .inr ⟨rfl, rfl, rfl⟩
    | status => cases h; exact .inl rfl
    | cmd => cases h; exact .inl rfl
    | caps => cases h; exact .inl rfl
    | limb i j => cases h; exact .inl rfl

/-- Every event but the two resets leaves a faulted engine with its fault. -/
theorem takeEvent_of_err {e : Event} (herr : s.err = true) (h : takeEvent e s = .next t) :
    (t.err = true ∧ t.errcode = s.errcode) ∨ e = .resetAssert ∨
      ∃ v, e = .write .word ctrlAddr v ∧ v.getLsbD 1 = true := by
  have hkept : s.err = true ∧ s.errcode = s.errcode := ⟨herr, rfl⟩
  have hstate : engineState s = .faulted := engineState_of_err herr
  cases hr : s.resetHeld with
  | true =>
    rw [takeEvent_held e hr] at h
    cases h
    cases e with
    | resetAssert => exact .inr (.inl rfl)
    | read | write | engine | pass | answer | resetRelease => exact .inl hkept
  | false =>
    rw [takeEvent_free e hr] at h
    cases e with
    | read => cases h; exact .inl hkept
    | write width addr v =>
      obtain rfl | ⟨rfl, rfl, rfl⟩ := hostWrite_of_err herr h
      · exact .inl hkept
      · obtain ⟨hv, -⟩ | ⟨-, hctrl⟩ := controlWrite_cases v s
        · exact .inr (.inr ⟨v, rfl, hv⟩)
        · rw [hctrl]
          exact .inl hkept
    | engine =>
      cases (engineStep_of_not_running (by simp [hstate])).symm.trans h
      exact .inl hkept
    | pass =>
      cases h
      rw [passStep_of_not_running (by simp [hstate])]
      exact .inl hkept
    | answer val =>
      cases (answerStep_of_not_waiting (by simp [hstate]) val).symm.trans h
      exact .inl hkept
    | resetAssert => exact .inr (.inl rfl)
    | resetRelease => cases h; exact .inl hkept

end Faulted

/-! ## The bits the interrupt output is made of (R262) -/

section Bits
variable (s : State)

theorem ctrlWord_ie : (ctrlWord s).getLsbD 0 = s.ie := by
  simp only [ctrlWord, BitVec.getLsbD_append]
  simp

theorem statusWord_done : (statusWord s).getLsbD 1 = s.done := by
  simp only [statusWord, BitVec.getLsbD_append]
  simp

theorem statusWord_err : (statusWord s).getLsbD 3 = s.err := by
  simp only [statusWord, BitVec.getLsbD_append]
  simp

end Bits

end Sys2Proof.Machine

open Sys2Proof Sys2Proof.Machine

/-- Settles O35: read off the event the step takes; the engine's own step is no reset. -/
theorem faultKeptUntilReset : Obligations.FaultKeptUntilReset := by
  intro s t herr h
  cases hsched : s.schedule with
  | nil =>
    rw [step_of_nil hsched] at h
    obtain hkept | hreset | ⟨v, hctrl, -⟩ := takeEvent_of_err herr h
    · exact .inl hkept
    · cases hreset
    · cases hctrl
  | cons e rest =>
    rw [step_of_cons hsched] at h
    obtain hkept | rfl | ⟨v, rfl, hv⟩ := takeEvent_of_err (s := withSchedule rest s) herr h
    · exact .inl hkept
    · exact .inr (.inl ⟨rest, rfl⟩)
    · exact .inr (.inr ⟨v, rest, rfl, hv⟩)

/-- Settles O55: the three bits are the flags of R262. -/
theorem interruptOutput : Obligations.InterruptOutput := by
  intro s
  rw [ctrlWord_ie, statusWord_done, statusWord_err]
  simp [irq]
end

section
/-! SUPPORT. The reset input (R290, R292): what it does at its edges and while it is held, and the answer that comes too late. -/

namespace Sys2Proof.Machine

section ResetInput
variable {s : State} {rest : List Event}

/-- While reset is held no step stops the model: the event does what `heldEvent` says. -/
theorem step_held {e : Event} (hheld : s.resetHeld = true) (hsched : s.schedule = e :: rest) :
    step s = .next (heldEvent e (withSchedule rest s)) := by
  rw [step_of_cons hsched, takeEvent_held (s := withSchedule rest s) e hheld]

/-- Asserting reset does the same whether or not it is held already. -/
theorem step_resetAssert (hsched : s.schedule = .resetAssert :: rest) :
    step s = .next (assertReset (withSchedule rest s)) := by
  cases hr : s.resetHeld with
  | false => rw [step_free hr hsched, freeEvent]
  | true => rw [step_held hr hsched, heldEvent]

theorem engineState_ne_waiting_of_rwait (h : s.rwait = false) : engineState s ≠ .waiting := by
  intro hw
  obtain ⟨-, hrwait, -⟩ := engineState_waiting_iff.1 hw
  exact absurd hrwait (Bool.eq_false_iff.1 h)

/-- Without a request an answer only leaves the schedule: held reset takes none, and otherwise only a waiting engine takes one. -/
theorem step_answer_of_not_rwait {val : Nat} (hrwait : s.rwait = false) (hsched : s.schedule = .answer val :: rest) :
    step s = .next (withSchedule rest s) := by
  cases hr : s.resetHeld with
  | true => rw [step_held hr hsched, heldEvent]
  | false =>
    rw [step_free hr hsched, freeEvent]
    exact answerStep_of_not_waiting (s := withSchedule rest s) (engineState_ne_waiting_of_rwait hrwait) val

end ResetInput

end Sys2Proof.Machine

open Sys2Proof Sys2Proof.Machine

/-- Settles O53: the assertion in both levels of the input, then `heldEvent` on each event. -/
theorem hardwareResetHolds : Obligations.HardwareResetHolds := by
  intro s rest
  refine ⟨fun hsched => step_resetAssert hsched, fun width addr v hheld hsched => ?_, fun val hheld hsched => ?_,
    fun hheld hsched => step_held hheld hsched⟩
  · obtain hread | hwrite := hsched
    · exact step_held hheld hread
    · exact step_held hheld hwrite
  · obtain hengine | hpass | hanswer := hsched
    · exact step_held hheld hengine
    · exact step_held hheld hpass
    · exact step_held hheld hanswer

/-- Settles O54: an outstanding request is an engine that waits, with `RWAIT` set (R166). -/
theorem lateAnswerIgnored : Obligations.LateAnswerIgnored :=
  fun _ _ _ hrwait hsched => step_answer_of_not_rwait hrwait hsched
end
